-- ==== Sys2Proof/Word.lean ====
section
/-! DEFINITION. The byte, and the 8-lane value every stage of the unit maps to an 8-lane value
(10_state R8, R9: fixed-size byte arrays; 00_scope section 5: byte arrays, `A[0]` to `A[7]`). -/

namespace Sys2Proof

/-- One byte; bit 0 is the least significant (00_scope section 5, 20_memory R27). -/
abbrev Byte := BitVec 8

/-- An array of exactly eight entries, `l0` being index 0, the first byte received (20_memory R23). -/
structure Lanes (α : Type) where
  l0 : α
  l1 : α
  l2 : α
  l3 : α
  l4 : α
  l5 : α
  l6 : α
  l7 : α
  deriving DecidableEq, Repr

/-- Eight bytes: a RawFrame, a DecryptedFrame or a stage value. -/
abbrev Bytes8 := Lanes Byte

/-- `A[i]`. -/
def Lanes.get {α : Type} (a : Lanes α) (i : Fin 8) : α :=
  match i with
  | 0 => a.l0
  | 1 => a.l1
  | 2 => a.l2
  | 3 => a.l3
  | 4 => a.l4
  | 5 => a.l5
  | 6 => a.l6
  | 7 => a.l7

/-- `A[i] <- v`. -/
def Lanes.set {α : Type} (a : Lanes α) (i : Fin 8) (v : α) : Lanes α :=
  match i with
  | 0 => { a with l0 := v }
  | 1 => { a with l1 := v }
  | 2 => { a with l2 := v }
  | 3 => { a with l3 := v }
  | 4 => { a with l4 := v }
  | 5 => { a with l5 := v }
  | 6 => { a with l6 := v }
  | 7 => { a with l7 := v }

/-- The array whose entry `i` is `f i`: a stage that writes every lane. -/
def Lanes.ofFn {α : Type} (f : Fin 8 → α) : Lanes α :=
  ⟨f 0, f 1, f 2, f 3, f 4, f 5, f 6, f 7⟩

/-- The entries, index 0 first. -/
def Lanes.toList {α : Type} (a : Lanes α) : List α :=
  [a.l0, a.l1, a.l2, a.l3, a.l4, a.l5, a.l6, a.l7]

end Sys2Proof
end

