-- ==== Sys2Proof/Config.lean ====
section
/-! DEFINITION. What is fixed for one unit: the parameters of 00_scope section 4, with the spec's default instance.
A configuration is a field of State, so that a statement about every state is a statement about every configuration
(00_scope R2: "The model takes `KEY` as a configuration argument"). -/

namespace Sys2Proof

/-- The evaluation order of the temperature conversion (00_scope R6; 92_eei_decisions D8). -/
inductive TempEval where
  /-- Every operation in binary32, round to nearest even (the default). -/
  | binary32
  /-- The expression in binary64, then one rounding to binary32. -/
  | binary64ThenRound
  deriving DecidableEq, Repr

/-- The configuration tables and the parameter `tempEval` (R2, R3, R4, R6). A table of other than 8 entries and an
entry out of range are refused by these types (60_exceptions R83). -/
structure Config where
  /-- `KEY[0..7]` (R2, 10_state R10). -/
  key : Lanes Byte
  /-- `PERM[0..7]`, 3-bit indices (R3, 10_state R11). -/
  perm : Lanes (Fin 8)
  /-- `CSTATE[0..7]` (R4, 10_state R12). -/
  cstate : Lanes Byte
  /-- `tempEval` (R6). -/
  tempEval : TempEval
  deriving DecidableEq, Repr

/-- The spec's default instance (10_state section 2, the default-instance table). -/
def Config.default : Config where
  key := ⟨0xC4, 0xC6, 0xC0, 0x92, 0x40, 0x23, 0xDC, 0x1E⟩
  perm := ⟨2, 4, 0, 7, 1, 6, 5, 3⟩
  cstate := ⟨0x48, 0x74, 0x65, 0x6D, 0x70, 0x39, 0x39, 0x74⟩
  tempEval := .binary32

/-- The parameter `LATENCY` of 00_scope R7: a natural number with no upper bound, on which no rule depends. It has no
value here and nothing in the model reads it (log entry 8). -/
opaque Config.latency : Nat

end Sys2Proof
end

