-- ==== Sys2Proof/Machine/Operands.lean ====
section
/-! DEFINITION. The operand forms: packing of eight bytes into a 64-bit port and back, and the fields of a
DecryptedFrame (20_memory R23 to R25, 30_encoding R37, R38). -/

namespace Sys2Proof.Machine

/-- `word64(A)`: byte 0 in bits 63:56, byte 7 in bits 7:0 (20_memory R24). -/
def word64 (a : Lanes Byte) : BitVec 64 :=
  (a.l0.setWidth 64 <<< 56) ||| (a.l1.setWidth 64 <<< 48) ||| (a.l2.setWidth 64 <<< 40) |||
  (a.l3.setWidth 64 <<< 32) ||| (a.l4.setWidth 64 <<< 24) ||| (a.l5.setWidth 64 <<< 16) |||
  (a.l6.setWidth 64 <<< 8) ||| a.l7.setWidth 64

/-- `bytes8(w)`, the inverse of `word64`: byte i is `w[63-8i : 56-8i]` (40_deobfuscator R46). -/
def bytes8 (w : BitVec 64) : Lanes Byte :=
  ⟨w.extractLsb' 56 8, w.extractLsb' 48 8, w.extractLsb' 40 8, w.extractLsb' 32 8,
   w.extractLsb' 24 8, w.extractLsb' 16 8, w.extractLsb' 8 8, w.extractLsb' 0 8⟩

/-- The opcode byte `OUT[0]` (30_encoding R37). -/
def opcode (out : Lanes Byte) : Byte := out.l0

/-- `PAYLOAD = zext_16(OUT[1]) << 8 | zext_16(OUT[2])`, big-endian and unsigned (30_encoding R38, 20_memory R25). -/
def payload (out : Lanes Byte) : BitVec 16 :=
  (out.l1.setWidth 16 <<< 8) ||| out.l2.setWidth 16

/-- The high payload byte, which stands at `OUT[1]` (30_encoding R37, R38). -/
def payloadHi (p : BitVec 16) : Byte := p.extractLsb' 8 8

/-- The low payload byte, which stands at `OUT[2]` (30_encoding R37, R38). -/
def payloadLo (p : BitVec 16) : Byte := p.extractLsb' 0 8

/-- Opcode of the CO2 path (30_encoding R39). -/
def opCo2 : Byte := 0x50

/-- Opcode of the temperature path (30_encoding R39). -/
def opTemp : Byte := 0x42

/-- The terminator byte a valid frame has at `OUT[4]` (30_encoding R37, R40). -/
def terminator : Byte := 0x0D

end Sys2Proof.Machine
end

