-- ==== Sys2Proof/Machine/Datapath.lean ====
section
/-! DEFINITION. The deobfuscator's stages P, X, R, A and S as functions of eight bytes, their composition, and the
derived inverse OBF (40_deobfuscator R47 to R56). -/

namespace Sys2Proof.Machine

/-- The bijection test of PERM: every index 0..7 appears (00_scope R3, 60_exceptions R83). -/
def permBijective (perm : Lanes (Fin 8)) : Bool :=
  perm.toList.contains 0 && perm.toList.contains 1 && perm.toList.contains 2 && perm.toList.contains 3 &&
  perm.toList.contains 4 && perm.toList.contains 5 && perm.toList.contains 6 && perm.toList.contains 7

/-- PERMUTE: `INTER[PERM[i]] <- RAW[i]` for i in 0..7, in the source's direction (40_deobfuscator R47). For a bijection
every lane is written, so the array the writes start from does not matter; another PERM is refused before this runs. -/
def permute (perm : Lanes (Fin 8)) (raw : Lanes Byte) : Lanes Byte :=
  (((((((raw.set perm.l0 raw.l0).set perm.l1 raw.l1).set perm.l2 raw.l2).set perm.l3 raw.l3).set
    perm.l4 raw.l4).set perm.l5 raw.l5).set perm.l6 raw.l6).set perm.l7 raw.l7

/-- XORKEY: `XORED[i] <- INTER[i] ^ KEY[i]` (40_deobfuscator R48). -/
def xorKey (key inter : Lanes Byte) : Lanes Byte :=
  Lanes.ofFn fun i => inter.get i ^^^ key.get i

/-- One lane of ROTATE: `((cur >> 3) | (prev << 5)) & 0xFF` (40_deobfuscator R49; the formula wins over the prose,
90_conflicts C1). The shift left drops the bits above bit 7, which is the rule's `& 0xFF`. -/
def rotateLane (cur prev : Byte) : Byte := (cur >>> 3) ||| (prev <<< 5)

/-- ROTATE: the byte before lane i is lane `(i + 7) mod 8`, which is `i - 1` in `Fin 8` (40_deobfuscator R49). -/
def rotate (xored : Lanes Byte) : Lanes Byte :=
  Lanes.ofFn fun i => rotateLane (xored.get i) (xored.get (i + 7))

/-- One lane of ADJUST: the nibble swap (40_deobfuscator R51). -/
def nibbleSwap (b : Byte) : Byte := (b >>> 4) ||| (b <<< 4)

/-- ADJUST: ADJ from CSTATE (40_deobfuscator R51). -/
def adjust (cstate : Lanes Byte) : Lanes Byte :=
  Lanes.ofFn fun i => nibbleSwap (cstate.get i)

/-- One lane of SUBTRACT: `(0x100 + r - a) & 0xFF`, computed in 9 bits and narrowed (40_deobfuscator R52). -/
def subLane (r a : Byte) : Byte :=
  ((0x100 : BitVec 9) + r.setWidth 9 - a.setWidth 9).setWidth 8

/-- SUBTRACT: lane by lane, no borrow between lanes (40_deobfuscator R52). -/
def subtract (adj rotated : Lanes Byte) : Lanes Byte :=
  Lanes.ofFn fun i => subLane (rotated.get i) (adj.get i)

/-- DEOBFUSCATE: the stages in their fixed order, with ADJ from CSTATE (40_deobfuscator R53). -/
def deobfuscate (cfg : Config) (raw : Lanes Byte) : Lanes Byte :=
  subtract (adjust cfg.cstate) (rotate (xorKey cfg.key (permute cfg.perm raw)))

/-- One lane of OBF's second line: `((cur << 3) | (next >> 5)) & 0xFF` (40_deobfuscator R56). -/
def unrotateLane (cur next : Byte) : Byte := (cur <<< 3) ||| (next >>> 5)

/-- OBF, the derived inverse of `deobfuscate`, used only to expand FRAME.PLAIN (40_deobfuscator R56, 30_encoding R45). -/
def obfuscate (cfg : Config) (out : Lanes Byte) : Lanes Byte :=
  let rotated := Lanes.ofFn fun i => out.get i + (adjust cfg.cstate).get i
  let xored := Lanes.ofFn fun i => unrotateLane (rotated.get i) (rotated.get (i + 1))
  let inter := Lanes.ofFn fun i => xored.get i ^^^ cfg.key.get i
  Lanes.ofFn fun i => inter.get (cfg.perm.get i)

end Sys2Proof.Machine
end

