-- ==== Sys2Proof/Machine/Flags.lean ====
section
/-! DEFINITION. The frame checksum validator: every flag computation of the unit (41_checksum R57 to R61). -/

namespace Sys2Proof.Machine

/-- `S16`: the sum of the first three bytes in 16-bit arithmetic, 0 to 765 (41_checksum R57). -/
def sum16 (out : Lanes Byte) : BitVec 16 :=
  out.l0.setWidth 16 + out.l1.setWidth 16 + out.l2.setWidth 16

/-- `SUM = S16 & 0xFF` (41_checksum R57). -/
def checksum (out : Lanes Byte) : Byte := (sum16 out &&& 0xFF).setWidth 8

/-- `TERM_OK`: all 8 bits of `OUT[4]` equal 0x0D (41_checksum R58). -/
def termOk (out : Lanes Byte) : Bool := out.l4 == terminator

/-- `SUM_OK`: `SUM == OUT[3]`, all 8 bits, no tolerance (41_checksum R59). -/
def sumOk (sum : Byte) (out : Lanes Byte) : Bool := sum == out.l3

/-- `VALID`: both flags (41_checksum R60). -/
def validFlag (tok sok : Bool) : Bool := tok && sok

/-- The source's `validate` as one predicate of the DecryptedFrame (41_checksum R60). -/
def valid (out : Lanes Byte) : Bool := validFlag (termOk out) (sumOk (checksum out) out)

end Sys2Proof.Machine
end

