-- ==== Sys2Proof/Machine/Float.lean ====
section
/-! DEFINITION. IEEE 754 binary32 and binary64 rounding, subtraction and division, and the temperature conversion
`temp_c` (42_frame_decoder R66, 00_scope R6 and section 5). Values are exact fractions; a result is narrowed once, by
round to nearest, ties to even. -/

namespace Sys2Proof.Machine

/-- An exact fraction `num / den` with `den` not 0: the real number an operation rounds. -/
structure Frac where
  num : Int
  den : Nat
  deriving DecidableEq, Repr

/-- A binary interchange format: `prec` significand bits, smallest unit `2 ^ (-qneg)`, `expBits` exponent bits. -/
structure Fmt where
  prec : Nat
  qneg : Nat
  expBits : Nat
  deriving DecidableEq, Repr

/-- IEEE 754 binary32 (93_implementation_defined G5). -/
def fmt32 : Fmt := ⟨24, 149, 8⟩

/-- IEEE 754 binary64 (00_scope R6, the alternative). -/
def fmt64 : Fmt := ⟨53, 1074, 11⟩

/-- The bit pattern of infinity without its sign: what a magnitude too large for the format rounds to. -/
def Fmt.inf (F : Fmt) : Nat := (2 ^ F.expBits - 1) * 2 ^ (F.prec - 1)

/-- `n / d` rounded to the nearest integer, ties to even. -/
def roundDiv (n d : Nat) : Nat :=
  let m := n / d
  let r := n % d
  if d < 2 * r ∨ (2 * r = d ∧ m % 2 = 1) then m + 1 else m

/-- Whether `2 ^ k ≤ n / d`. -/
def powLe (k : Int) (n d : Nat) : Bool := d * 2 ^ k.toNat ≤ n * 2 ^ (-k).toNat

/-- The exponent of the leading bit of `n / d`, for positive `n` and `d`. -/
def leadExp (n d : Nat) : Int :=
  let k := (Nat.log2 n : Int) - (Nat.log2 d : Int)
  if powLe k n d then k else k - 1

/-- The exponent of the unit in the last place of `n / d` in the format: never below the subnormal unit. -/
def Fmt.unitExp (F : Fmt) (n d : Nat) : Int :=
  max (leadExp n d - (F.prec - 1 : Nat)) (-(F.qneg : Int))

/-- The bit pattern, without sign, of the format's value nearest to `n / d`, ties to even. The significand is added
to the exponent field, so a significand that rounds up to the next power of two carries into the exponent. -/
def Fmt.roundMag (F : Fmt) (n d : Nat) : Nat :=
  if n = 0 then 0
  else
    let q := F.unitExp n d
    let m := roundDiv (n * 2 ^ (-q).toNat) (d * 2 ^ q.toNat)
    min ((q + F.qneg).toNat * 2 ^ (F.prec - 1) + m) F.inf

/-- The sign bit of the format as a number. -/
def Fmt.signBit (F : Fmt) : Nat := 2 ^ (F.expBits + F.prec - 1)

/-- The bit pattern of the format's value nearest to `x` (00_scope section 5, `f32(x)`). Zero is +0. -/
def Fmt.round (F : Fmt) (x : Frac) : Nat :=
  (if x.num < 0 then F.signBit else 0) + F.roundMag x.num.natAbs x.den

/-- The exact value of a finite bit pattern. -/
def Fmt.value (F : Fmt) (bits : Nat) : Frac :=
  let mag := bits % F.signBit
  let e := mag / 2 ^ (F.prec - 1)
  let frac := mag % 2 ^ (F.prec - 1)
  let m := if e = 0 then frac else frac + 2 ^ (F.prec - 1)
  let q : Int := (max e 1 : Nat) - 1 - (F.qneg : Int)
  let n : Int := (m * 2 ^ q.toNat : Nat)
  ⟨if bits < F.signBit then n else -n, 2 ^ (-q).toNat⟩

/-- Exact subtraction of fractions. -/
def Frac.sub (x y : Frac) : Frac := ⟨x.num * y.den - y.num * x.den, x.den * y.den⟩

/-- Exact division of fractions by a positive one. -/
def Frac.div (x y : Frac) : Frac := ⟨x.num * y.den, x.den * y.num.toNat⟩

/-- The format's subtraction: exact, then rounded once. -/
def Fmt.sub (F : Fmt) (a b : Nat) : Nat := F.round ((F.value a).sub (F.value b))

/-- The format's division by a positive number: exact, then rounded once. -/
def Fmt.div (F : Fmt) (a b : Nat) : Nat := F.round ((F.value a).div (F.value b))

/-- The real number 273.15. -/
def kelvinOffset : Frac := ⟨27315, 100⟩

/-- `value / 16.0 - 273.15` with every operation in the format (42_frame_decoder R66). -/
def Fmt.tempExpr (F : Fmt) (v : Nat) : Nat :=
  F.sub (F.div (F.round ⟨v, 1⟩) (F.round ⟨16, 1⟩)) (F.round kelvinOffset)

/-- `temp_c(v)`: the binary32 pattern of the temperature in degrees Celsius (42_frame_decoder R66). -/
def tempC (mode : TempEval) (v : BitVec 16) : BitVec 32 :=
  match mode with
  | .binary32 => BitVec.ofNat 32 (fmt32.tempExpr v.toNat)
  | .binary64ThenRound => BitVec.ofNat 32 (fmt32.round (fmt64.value (fmt64.tempExpr v.toNat)))

end Sys2Proof.Machine
end

