-- ==== Sys2Proof/Syntax.lean ====
section
/-! DEFINITION. The instruction type, one constructor per row of spec/opcode_table.json, and the words the host and the
deobfuscator present (30_encoding R36, R37, R44, R45). -/

namespace Sys2Proof

/-- One constructor per row of the opcode table. The first four are the DecryptedFrame rows: a valid frame's checksum
and terminator bytes follow from its other bytes, so they are no operands. -/
inductive Instr where
  /-- CO2 (42_frame_decoder R64): a valid frame with opcode 0x50; its payload and its three reserved bytes. -/
  | co2 (payload : BitVec 16) (r5 r6 r7 : Byte)
  /-- TEMP (R65): a valid frame with opcode 0x42; its payload and its three reserved bytes. -/
  | temp (payload : BitVec 16) (r5 r6 r7 : Byte)
  /-- NOREAD (R67): a valid frame with another opcode `op`. -/
  | noread (op : Byte) (payload : BitVec 16) (r5 r6 r7 : Byte)
  /-- BADFRAME (60_exceptions R77): any frame that fails validation, whatever its opcode. -/
  | badframe (out : Lanes Byte)
  /-- FRAME (43_frame_transaction R69): offer this 64-bit value on FRAME_IN, one transaction. -/
  | frame (frameIn : BitVec 64)
  /-- FRAME.PLAIN (30_encoding R45): the frame whose DecryptedFrame is this value. -/
  | framePlain (plain : BitVec 64)
  /-- RESET (70_reset_and_hazards R94). -/
  | reset
  /-- HANDSHAKE (43_frame_transaction R74): write the feature report to the device. -/
  | handshake
  /-- YIELD (R70): the host takes the Reading of a READING verdict. -/
  | yield
  /-- PERMUTE, stage P (40_deobfuscator R47). -/
  | permute
  /-- XORKEY, stage X (R48). -/
  | xorkey
  /-- ROTATE, stage R (R49). -/
  | rotate
  /-- ADJUST, stage A (R51). -/
  | adjust
  /-- SUBTRACT, stage S (R52). -/
  | subtract
  /-- DEOBFUSCATE, the stages P, X, R, A and S in order (R53). -/
  | deobfuscate
  /-- SUM (41_checksum R57). -/
  | sum
  /-- TERM_OK (R58). -/
  | termOk
  /-- SUM_OK (R59). -/
  | sumOk
  /-- VALID (R60). -/
  | valid
  /-- DISPATCH (42_frame_decoder R63). -/
  | dispatch
  deriving DecidableEq, Repr

/-- The places a word is presented at: the formats of the opcode table. A datapath stage has no selecting bits
(40_deobfuscator R47 to R53: "Encoding: none; the stage is always applied") and so no port. -/
inductive Port where
  /-- FRAME_IN: the eight bytes of a RawFrame, byte 0 first (30_encoding R36, 20_memory R23). -/
  | frameIn
  /-- The operand of the script line FRAME.PLAIN: eight bytes (30_encoding R45). -/
  | plain
  /-- The RESET signal: one byte that holds the 1-bit level (10_state R14). -/
  | resetLine
  /-- The feature report's selecting byte, the report id (30_encoding R44); the host appends KEY from KEY_OUT. -/
  | report
  /-- The verdict code on which YIELD is taken, one byte that holds RES.VERDICT's 2 bits (43_frame_transaction R70). -/
  | verdict
  /-- The deobfuscator's output: the eight bytes of a DecryptedFrame (30_encoding R37). No host move drives it. -/
  | out
  deriving DecidableEq, Repr

/-- How many bytes a word at this port has (30_encoding R36, R37, R43: every frame is exactly 8 bytes). -/
def Port.length : Port → Nat
  | .frameIn => 8
  | .plain => 8
  | .resetLine => 1
  | .report => 1
  | .verdict => 1
  | .out => 8

/-- A word: a port and the bytes presented there. -/
structure Line where
  port : Port
  bytes : List Byte
  deriving DecidableEq, Repr

end Sys2Proof
end

