-- ==== Sys2Proof/WellFormed.lean ====
section
/-! DEFINITION. Which instructions the frame decoder can produce: the table's conditions on the NOREAD and BADFRAME
rows (spec/opcode_table.json "condition"; 30_encoding R39, 60_exceptions R77). -/

namespace Sys2Proof

open Sys2Proof.Machine (opCo2 opTemp)

/-- An opcode without a recognised path (30_encoding R39: the 254 values that are neither 0x50 nor 0x42). -/
def unrecognized (op : Byte) : Bool := op != opCo2 && op != opTemp

/-- The condition of each row. The rows without one admit every value of their operands. -/
def Instr.wellFormed (i : Instr) : Bool :=
  match i with
  | .co2 _ _ _ _ => true
  | .temp _ _ _ _ => true
  | .noread op _ _ _ _ => unrecognized op
  | .badframe out => !Machine.valid out
  | .frame _ => true
  | .framePlain _ => true
  | .reset => true
  | .handshake => true
  | .yield => true
  | .permute => true
  | .xorkey => true
  | .rotate => true
  | .adjust => true
  | .subtract => true
  | .deobfuscate => true
  | .sum => true
  | .termOk => true
  | .sumOk => true
  | .valid => true
  | .dispatch => true

end Sys2Proof
end

