-- ==== Sys2Proof/Decode.lean ====
section
/-! DEFINITION. Decoding: total on any bytes at any port, with a named rejection, and the encoder written from the same
formats (30_encoding R36 to R45; spec/opcode_table.json). -/

namespace Sys2Proof

open Sys2Proof.Machine

/-- Why a word is no instruction. -/
inductive DecodeError where
  /-- The port takes another number of bytes: a partial or longer frame cannot be offered (20_memory R28). -/
  | wrongLength (port : Port) (length : Nat)
  /-- The RESET signal is one bit: level 0 asserts nothing, and there is no level above 1 (10_state R14). -/
  | resetNotAsserted (level : Byte)
  /-- The feature report's id is 0x00 (30_encoding R44). -/
  | notReportId (id : Byte)
  /-- YIELD is taken on the verdict READING only (43_frame_transaction R70). -/
  | notReading (verdict : Byte)
  deriving DecidableEq, Repr

/-- Eight bytes as an array, byte 0 first. -/
def lanesOf (bytes : List Byte) : Option (Lanes Byte) :=
  match bytes with
  | [a, b, c, d, e, f, g, h] => some ⟨a, b, c, d, e, f, g, h⟩
  | _ => none

/-- The opcode map on a DecryptedFrame: validation first, then the opcode (30_encoding R39, 60_exceptions R79). It is
total: every DecryptedFrame is in exactly one class (R42). -/
def classify (out : Lanes Byte) : Instr :=
  if valid out then
    if opcode out = opCo2 then .co2 (payload out) out.l5 out.l6 out.l7
    else if opcode out = opTemp then .temp (payload out) out.l5 out.l6 out.l7
    else .noread (opcode out) (payload out) out.l5 out.l6 out.l7
  else .badframe out

/-- The instruction of a word at a port. -/
def decode (l : Line) : Except DecodeError Instr :=
  match l.port with
  | .frameIn =>
    match lanesOf l.bytes with
    | some raw => .ok (.frame (word64 raw))
    | none => .error (.wrongLength l.port l.bytes.length)
  | .plain =>
    match lanesOf l.bytes with
    | some plain => .ok (.framePlain (word64 plain))
    | none => .error (.wrongLength l.port l.bytes.length)
  | .out =>
    match lanesOf l.bytes with
    | some out => .ok (classify out)
    | none => .error (.wrongLength l.port l.bytes.length)
  | .resetLine =>
    match l.bytes with
    | [level] => if level = 0x01 then .ok .reset else .error (.resetNotAsserted level)
    | _ => .error (.wrongLength l.port l.bytes.length)
  | .report =>
    match l.bytes with
    | [id] => if id = 0x00 then .ok .handshake else .error (.notReportId id)
    | _ => .error (.wrongLength l.port l.bytes.length)
  | .verdict =>
    match l.bytes with
    | [code] => if code = 0x01 then .ok .yield else .error (.notReading code)
    | _ => .error (.wrongLength l.port l.bytes.length)

/-- The eight bytes of a valid frame with this opcode, payload and reserved bytes: the checksum byte is the sum of the
first three and the terminator is 0x0D (30_encoding R37, R40). -/
def validFrame (op : Byte) (p : BitVec 16) (r5 r6 r7 : Byte) : Lanes Byte :=
  ⟨op, payloadHi p, payloadLo p, op + payloadHi p + payloadLo p, terminator, r5, r6, r7⟩

/-- The word of an instruction; a datapath stage has none (40_deobfuscator R47 to R53, "Encoding: none"). -/
def encode (i : Instr) : Option Line :=
  match i with
  | .co2 p r5 r6 r7 => some ⟨.out, (validFrame opCo2 p r5 r6 r7).toList⟩
  | .temp p r5 r6 r7 => some ⟨.out, (validFrame opTemp p r5 r6 r7).toList⟩
  | .noread op p r5 r6 r7 => some ⟨.out, (validFrame op p r5 r6 r7).toList⟩
  | .badframe out => some ⟨.out, out.toList⟩
  | .frame w => some ⟨.frameIn, (bytes8 w).toList⟩
  | .framePlain w => some ⟨.plain, (bytes8 w).toList⟩
  | .reset => some ⟨.resetLine, [0x01]⟩
  | .handshake => some ⟨.report, [0x00]⟩
  | .yield => some ⟨.verdict, [0x01]⟩
  | .permute => none
  | .xorkey => none
  | .rotate => none
  | .adjust => none
  | .subtract => none
  | .deobfuscate => none
  | .sum => none
  | .termOk => none
  | .sumOk => none
  | .valid => none
  | .dispatch => none

/-- The word the opcode table's numbered bits name. An 8-bit row is a control row: an odd byte is a level of the RESET
signal, an even one a report id. Every other row is the 64-bit `word64(OUT)` of a DecryptedFrame, its bits above
`nbits` zero. -/
def tableLine (nbits w : Nat) : Line :=
  if nbits = 8 then
    if w % 2 = 1 then ⟨.resetLine, [BitVec.ofNat 8 w]⟩ else ⟨.report, [BitVec.ofNat 8 w]⟩
  else ⟨.out, (bytes8 (BitVec.ofNat 64 (w % 2 ^ nbits))).toList⟩

/-- The instruction the decoder reads from an opcode-table word. -/
def decodeTableWord (nbits w : Nat) : Option Instr :=
  match decode (tableLine nbits w) with
  | .ok i => some i
  | .error _ => none

end Sys2Proof
end

