-- ==== Sys2Proof/Machine/State.lean ====
section
/-! DEFINITION. The machine's state as plain data, its faults and refusals, and the state after reset (10_state,
60_exceptions sections 2 and 4, 70_reset_and_hazards section 1). There is no memory (20_memory R22). -/

namespace Sys2Proof.Machine

/-- A Reading: exactly two variants, each with its payload (42_frame_decoder R68). -/
inductive Reading where
  /-- `CO2(ppm: unsigned 16-bit)`. -/
  | co2 (ppm : BitVec 16)
  /-- `Temperature(celsius: 32-bit float)`, the binary32 pattern. -/
  | temperature (celsius : BitVec 32)
  deriving DecidableEq, Repr

/-- The result latch RES. Each case holds exactly the fields that 10_state R17 defines for its verdict; a field it
does not hold is undefined: it "has no value in the model" (R18). In the last two cases TERM_OK = SUM_OK = 1 (R17). -/
inductive Res where
  /-- VERDICT = EMPTY: no transaction since reset; every other field is undefined. -/
  | empty
  /-- VERDICT = DISCARD_CHECKSUM, KIND = NONE; CO2_PPM and TEMP_C undefined. -/
  | discardChecksum (termOk sumOk : Bool) (frame : BitVec 64) (payload : BitVec 16)
  /-- VERDICT = DISCARD_UNRECOGNIZED, KIND = NONE; CO2_PPM and TEMP_C undefined. -/
  | discardUnrecognized (frame : BitVec 64) (payload : BitVec 16)
  /-- VERDICT = READING; KIND and CO2_PPM or TEMP_C are the reading's tag and payload (R68). -/
  | reading (frame : BitVec 64) (payload : BitVec 16) (r : Reading)
  deriving DecidableEq, Repr

/-- RES.VERDICT's legal values (10_state R16, 60_exceptions R76). -/
inductive Verdict where
  | empty
  | reading
  | discardChecksum
  | discardUnrecognized
  deriving DecidableEq, Repr

/-- RES.KIND's legal values; code 3 is never written (10_state R16). -/
inductive Kind where
  | none
  | co2
  | temperature
  deriving DecidableEq, Repr

/-- The fields of RES a host can read (10_state R16). -/
inductive ResField where
  | verdict
  | termOk
  | sumOk
  | frame
  | kind
  | payload
  | co2Ppm
  | tempC
  deriving DecidableEq, Repr

/-- A transaction in flight: the RawFrame it sampled and the combinational values evaluated so far (10_state R9).
`none` says that the stage has not been evaluated in this transaction. They do not survive it. -/
structure Flight where
  raw : Lanes Byte
  inter : Option (Lanes Byte)
  xored : Option (Lanes Byte)
  rotated : Option (Lanes Byte)
  out : Option (Lanes Byte)
  sum : Option Byte
  termOk : Option Bool
  sumOk : Option Bool
  valid : Option Bool
  /-- The result of `decode(OUT)` (42_frame_decoder R63): a Reading or none. -/
  decoded : Option (Option Reading)
  deriving DecidableEq, Repr

/-- The input signals of 10_state R14, as the host drives them now. -/
structure Pins where
  /-- RESET. -/
  reset : Bool
  /-- FRAME_IN. -/
  frameIn : BitVec 64
  /-- IN_VALID. -/
  inValid : Bool
  deriving DecidableEq, Repr

/-- A move of the host (60_exceptions section 4, 30_encoding R45). -/
inductive HostMove where
  /-- A script line or host operation, as its word. -/
  | line (l : Line)
  /-- Read one field of RES. -/
  | readRes (f : ResField)
  /-- Read KEY_OUT. -/
  | readKey
  deriving DecidableEq, Repr

/-- The faults of the model. -/
inductive Fault where
  /-- `UndefinedResultRead(field)`: raised by a host read of a RES field that 10_state R17 marks undefined for the
  current verdict (60_exceptions R84). It "is never cleared and is never final": the read goes to `HostSide.faults` and
  `HostSide.got`, and the machine goes on, so no step ends with it. Safe: hardware may drive any value there. -/
  | undefinedResultRead (field : ResField)
  deriving DecidableEq, Repr

/-- What a host read returned: a value, zero-extended to 64 bits, or the fault it raised, which holds no value. -/
inductive HostGot where
  | nothing
  | res (f : ResField) (bits : BitVec 64)
  | key (bits : BitVec 64)
  | fault (r : Fault)
  deriving DecidableEq, Repr

/-- The model's own fields for the host, which the unit does not hold. -/
structure HostSide where
  /-- The host's coming moves, first one first (log entry 5). -/
  script : List HostMove
  /-- The Readings handed to the sink, oldest first (43_frame_transaction R70, R73; 60_exceptions R90). -/
  stream : List Reading
  /-- Whether the last transaction's outcome is still to be taken by YIELD (log entry 6). -/
  fresh : Bool
  /-- The feature reports written to the device, oldest first (43_frame_transaction R74). -/
  reports : List (List Byte)
  /-- What the host's last read returned. -/
  got : HostGot
  /-- The faults that host reads have raised, oldest first; nothing clears one (60_exceptions R84; log entry 3). -/
  faults : List Fault
  deriving DecidableEq, Repr

/-- The whole machine. -/
structure State where
  /-- The configuration tables KEY, PERM, CSTATE and the parameter tempEval (10_state R10 to R12, 00_scope R6). -/
  cfg : Config
  /-- The table ADJ (10_state R13). -/
  adj : Lanes Byte
  /-- The input signals (10_state R14). -/
  pins : Pins
  /-- The transaction in flight: `some` is the in-flight flag behind IN_READY (10_state section 7). -/
  flight : Option Flight
  /-- The result latch (10_state R15, R16). -/
  res : Res
  /-- The host. -/
  host : HostSide
  deriving DecidableEq, Repr

/-- Why a configuration is refused (60_exceptions R83). -/
inductive ConfigReason where
  /-- PERM is not a bijection of 0..7. -/
  | permNotBijection
  deriving DecidableEq, Repr

/-- Why the machine gives no next state. -/
inductive Refusal where
  /-- An instruction without a meaning, raised by `exec`'s arm for it. Safe. No arm raises it. -/
  | notModelled (mnemonic : String)
  /-- `ConfigInvalid(reason)`: raised by every transaction and every stage of one when the configuration is refused
  (60_exceptions R83). Safe: the spec gives such a configuration no meaning. -/
  | configInvalid (reason : ConfigReason)
  /-- Raised by the fetch of a host line that is no word of its port (20_memory R28). Safe: it cannot be offered. -/
  | badOffer (e : DecodeError)
  /-- Raised by the fetch of a host line at a port the host does not drive: OUT is inside the unit (60_exceptions R92).
  Safe: it cannot be offered. -/
  | notHostDriven (port : Port)
  deriving DecidableEq, Repr

/-- A unit built with the tables `c`, right after reset or power-on: VERDICT = EMPTY, nothing in flight, ADJ derived
from the tables (70_reset_and_hazards R94 to R96: "A unit built with other tables is another configuration and starts
in the reset state of rule R94"). The host drives nothing yet (log entry 4). -/
def State.powerOn (c : Config) : State where
  cfg := c
  adj := adjust c.cstate
  pins := ⟨false, 0, false⟩
  flight := none
  res := .empty
  host := ⟨[], [], false, [], .nothing, []⟩

/-- The machine right after reset with the spec's default instance (log entry 1). -/
def State.reset : State := State.powerOn Config.default

end Sys2Proof.Machine
end

