-- ==== Sys2Proof/Machine/Ops.lean ====
section
/-! DEFINITION. The named operations over the state: field updates, the outputs of the unit, host reads of the latch, the
stages of a transaction, the latching of each verdict, and the transaction itself.
TAKING AN EXCEPTION: the spec describes none ("No transaction raises a trap, saves state, changes a mode or redirects
control", 60_exceptions R76; no trap entry, R81; no trap return, R82), so there is no such operation. What the source
calls errors are verdicts in RES, latched by `pathBadframe` and `pathNoread`. -/

namespace Sys2Proof.Machine

/-- Write the latch RES. -/
def State.setRes (s : State) (r : Res) : State := { s with res := r }

/-- Write the table ADJ. -/
def State.setAdj (s : State) (a : Lanes Byte) : State := { s with adj := a }

/-- Write the input signals. -/
def State.setPins (s : State) (p : Pins) : State := { s with pins := p }

/-- Write the transaction in flight. -/
def State.setFlight (s : State) (f : Option Flight) : State := { s with flight := f }

/-- Write the host's fields. -/
def State.setHost (s : State) (h : HostSide) : State := { s with host := h }

/-- `IN_READY`: 1 whenever no transaction is in flight (10_state R14). -/
def State.inReady (s : State) : Bool := s.flight.isNone

/-- `KEY_OUT = word64(KEY)` (10_state R14, 20_memory R24). -/
def State.keyOut (s : State) : BitVec 64 := word64 s.cfg.key

/-- RES.VERDICT (10_state R16, R17). -/
def Res.verdict (r : Res) : Verdict :=
  match r with
  | .empty => .empty
  | .discardChecksum _ _ _ _ => .discardChecksum
  | .discardUnrecognized _ _ => .discardUnrecognized
  | .reading _ _ _ => .reading

/-- The 2-bit code of a verdict (10_state R16, 60_exceptions R76). -/
def Verdict.code (v : Verdict) : BitVec 2 :=
  match v with
  | .empty => 0
  | .reading => 1
  | .discardChecksum => 2
  | .discardUnrecognized => 3

/-- The 2-bit code of a kind (10_state R16). -/
def Kind.code (k : Kind) : BitVec 2 :=
  match k with
  | .none => 0
  | .co2 => 1
  | .temperature => 2

/-- The tag of a Reading as RES.KIND (42_frame_decoder R68). -/
def Reading.kind (r : Reading) : Kind :=
  match r with
  | .co2 _ => .co2
  | .temperature _ => .temperature

/-- The 1-bit value of a flag, zero-extended. -/
def flagBits (b : Bool) : BitVec 64 := (BitVec.ofBool b).setWidth 64

/-- RES.TERM_OK where the verdict defines it (10_state R17). -/
def Res.termOk (r : Res) : Option Bool :=
  match r with
  | .empty => none
  | .discardChecksum tok _ _ _ => some tok
  | .discardUnrecognized _ _ => some true
  | .reading _ _ _ => some true

/-- RES.SUM_OK where the verdict defines it (10_state R17). -/
def Res.sumOk (r : Res) : Option Bool :=
  match r with
  | .empty => none
  | .discardChecksum _ sok _ _ => some sok
  | .discardUnrecognized _ _ => some true
  | .reading _ _ _ => some true

/-- RES.FRAME where the verdict defines it (10_state R17). -/
def Res.frame (r : Res) : Option (BitVec 64) :=
  match r with
  | .empty => none
  | .discardChecksum _ _ frame _ => some frame
  | .discardUnrecognized frame _ => some frame
  | .reading frame _ _ => some frame

/-- RES.PAYLOAD where the verdict defines it (10_state R17). -/
def Res.payload (r : Res) : Option (BitVec 16) :=
  match r with
  | .empty => none
  | .discardChecksum _ _ _ p => some p
  | .discardUnrecognized _ p => some p
  | .reading _ p _ => some p

/-- RES.KIND where the verdict defines it (10_state R17). -/
def Res.kind (r : Res) : Option Kind :=
  match r with
  | .empty => none
  | .discardChecksum _ _ _ _ => some .none
  | .discardUnrecognized _ _ => some .none
  | .reading _ _ rd => some rd.kind

/-- The Reading the host obtains from RES, exactly when the verdict is READING (43_frame_transaction R70). -/
def Res.readingOf (r : Res) : Option Reading :=
  match r with
  | .empty => none
  | .discardChecksum _ _ _ _ => none
  | .discardUnrecognized _ _ => none
  | .reading _ _ rd => some rd

/-- RES.CO2_PPM where verdict and kind define it (10_state R17). -/
def Res.co2Ppm (r : Res) : Option (BitVec 16) :=
  match r.readingOf with
  | some (.co2 p) => some p
  | some (.temperature _) => none
  | none => none

/-- RES.TEMP_C where verdict and kind define it (10_state R17). -/
def Res.tempC (r : Res) : Option (BitVec 32) :=
  match r.readingOf with
  | some (.temperature t) => some t
  | some (.co2 _) => none
  | none => none

/-- The bits of a RES field, zero-extended to 64, where it is defined. -/
def Res.bits (r : Res) (f : ResField) : Option (BitVec 64) :=
  match f with
  | .verdict => some (r.verdict.code.setWidth 64)
  | .termOk => r.termOk.map flagBits
  | .sumOk => r.sumOk.map flagBits
  | .frame => r.frame
  | .kind => r.kind.map fun k => k.code.setWidth 64
  | .payload => r.payload.map fun p => p.setWidth 64
  | .co2Ppm => r.co2Ppm.map fun p => p.setWidth 64
  | .tempC => r.tempC.map fun t => t.setWidth 64

/-- A host read of a RES field: its value, or the fault UndefinedResultRead (10_state R18, 60_exceptions R84). -/
def Res.read (r : Res) (f : ResField) : Except Fault (BitVec 64) :=
  match r.bits f with
  | some w => .ok w
  | none => .error (.undefinedResultRead f)

/-- A transaction at its start: the sampled RawFrame, no stage evaluated yet (40_deobfuscator R46, 20_memory R29). -/
def Flight.start (raw : Lanes Byte) : Flight :=
  ⟨raw, none, none, none, none, none, none, none, none, none⟩

/-- The refusal ConfigInvalid guards every transaction and every stage of one (60_exceptions R83). -/
def State.guarded (s : State) (next : State) : Host.Outcome State Fault Refusal :=
  if permBijective s.cfg.perm then .next next else .refused (.configInvalid .permNotBijection)

/-- Evaluate a stage on the transaction in flight; an idle unit "holds RES and changes nothing" (60_exceptions R93). -/
def State.onFlight (s : State) (g : Flight → Flight) : State := s.setFlight (s.flight.map g)

/-- Stage P on the transaction in flight (40_deobfuscator R47). -/
def State.stagePermute (s : State) : State :=
  s.onFlight fun f => { f with inter := some (permute s.cfg.perm f.raw) }

/-- Stage X (R48). -/
def State.stageXorkey (s : State) : State :=
  s.onFlight fun f => { f with xored := f.inter.map (xorKey s.cfg.key) }

/-- Stage R (R49). -/
def State.stageRotate (s : State) : State :=
  s.onFlight fun f => { f with rotated := f.xored.map rotate }

/-- Stage A: the table ADJ from CSTATE; it reads no frame (R51, 10_state R13). -/
def State.stageAdjust (s : State) : State := s.setAdj (adjust s.cfg.cstate)

/-- Stage S, with the table ADJ (R52). -/
def State.stageSubtract (s : State) : State :=
  s.onFlight fun f => { f with out := f.rotated.map (subtract s.adj) }

/-- The five stages in their fixed order (R53). -/
def State.stageDeobfuscate (s : State) : State :=
  s.stagePermute.stageXorkey.stageRotate.stageAdjust.stageSubtract

/-- SUM (41_checksum R57). -/
def State.stageSum (s : State) : State :=
  s.onFlight fun f => { f with sum := f.out.map checksum }

/-- TERM_OK (R58). -/
def State.stageTermOk (s : State) : State :=
  s.onFlight fun f => { f with termOk := f.out.map termOk }

/-- SUM_OK, from SUM and OUT[3] (R59). -/
def State.stageSumOk (s : State) : State :=
  s.onFlight fun f => { f with sumOk := f.sum.bind fun x => f.out.map (sumOk x) }

/-- VALID, from the two flags (R60). -/
def State.stageValid (s : State) : State :=
  s.onFlight fun f => { f with valid := f.termOk.bind fun t => f.sumOk.map (validFlag t) }

/-- The decode function: total, defined for valid and invalid frames alike (42_frame_decoder R62, R63). -/
def decodeReading (mode : TempEval) (out : Lanes Byte) : Option Reading :=
  if opcode out = opCo2 then some (.co2 (payload out))
  else if opcode out = opTemp then some (.temperature (tempC mode (payload out)))
  else none

/-- DISPATCH (42_frame_decoder R63). -/
def State.stageDispatch (s : State) : State :=
  s.onFlight fun f => { f with decoded := f.out.map (decodeReading s.cfg.tempEval) }

/-- End the transaction: RES is written whole, nothing is in flight, and the outcome is there to be taken
(10_state R15, 20_memory R29). -/
def State.latch (s : State) (r : Res) : State :=
  ((s.setRes r).setFlight none).setHost { s.host with fresh := true }

/-- The BADFRAME row: VERDICT = DISCARD_CHECKSUM with both sub-causes recorded (60_exceptions R77, R80). -/
def State.pathBadframe (s : State) (out : Lanes Byte) : State :=
  s.latch (.discardChecksum (termOk out) (sumOk (checksum out) out) (word64 out) (payload out))

/-- The NOREAD row: VERDICT = DISCARD_UNRECOGNIZED (42_frame_decoder R67, 60_exceptions R78). -/
def State.pathNoread (s : State) (op : Byte) (p : BitVec 16) (r5 r6 r7 : Byte) : State :=
  s.latch (.discardUnrecognized (word64 (validFrame op p r5 r6 r7)) p)

/-- The CO2 row: `RES.CO2_PPM <- PAYLOAD`, unscaled (42_frame_decoder R64). -/
def State.pathCo2 (s : State) (p : BitVec 16) (r5 r6 r7 : Byte) : State :=
  s.latch (.reading (word64 (validFrame opCo2 p r5 r6 r7)) p (.co2 p))

/-- The TEMP row: `RES.TEMP_C <- temp_c(PAYLOAD)` (42_frame_decoder R65, R66). -/
def State.pathTemp (s : State) (p : BitVec 16) (r5 r6 r7 : Byte) : State :=
  s.latch (.reading (word64 (validFrame opTemp p r5 r6 r7)) p (.temperature (tempC s.cfg.tempEval p)))

/-- The verdict branches of the transaction on its evaluated values: validation first, then the decode result
(43_frame_transaction R69). A transaction whose verdict is not evaluated yet stays in flight. -/
def State.finish (s : State) : State :=
  match s.flight with
  | none => s
  | some f =>
    match f.out, f.valid, f.decoded with
    | some out, some false, some _ => s.pathBadframe out
    | some out, some true, some none => s.pathNoread (opcode out) (payload out) out.l5 out.l6 out.l7
    | some out, some true, some (some (.co2 _)) => s.pathCo2 (payload out) out.l5 out.l6 out.l7
    | some out, some true, some (some (.temperature _)) => s.pathTemp (payload out) out.l5 out.l6 out.l7
    | _, _, _ => s

/-- RES as a function of the DecryptedFrame: the verdict branches of 43_frame_transaction R69 in one place. The
transaction itself runs the stages and `finish`; statements compare its latch with this. -/
def resultOf (mode : TempEval) (out : Lanes Byte) : Res :=
  if valid out then
    match decodeReading mode out with
    | none => .discardUnrecognized (word64 out) (payload out)
    | some r => .reading (word64 out) (payload out) r
  else .discardChecksum (termOk out) (sumOk (checksum out) out) (word64 out) (payload out)

/-- Every stage of a transaction in the order of 43_frame_transaction R69. -/
def State.runStages (s : State) : State :=
  s.stageDeobfuscate.stageSum.stageTermOk.stageSumOk.stageValid.stageDispatch

/-- Complete a transaction in flight; the unit always completes one (92_eei_decisions D6). -/
def State.complete (s : State) : State :=
  match s.flight with
  | none => s
  | some _ => s.runStages.finish

/-- Accept an offered frame: FRAME_IN holds it, it is sampled whole, and the offer is taken (10_state R14, 20_memory
R29, 40_deobfuscator R46). -/
def State.accept (s : State) (frameIn : BitVec 64) : State :=
  (s.setPins { s.pins with frameIn := frameIn, inValid := false }).setFlight (some (Flight.start (bytes8 frameIn)))

/-- The transaction, one atomic step (43_frame_transaction R69). A frame offered while busy waits until the transaction
in flight has written RES, and is then accepted (20_memory R32, 70_reset_and_hazards R100). -/
def State.transact (s : State) (frameIn : BitVec 64) : State :=
  ((s.complete).accept frameIn).runStages.finish

/-- RESET: VERDICT = EMPTY and every other field undefined, nothing in flight; the tables and the offered frame are
untouched, nothing is yielded, and the device is not touched (70_reset_and_hazards R94, R95, R103). -/
def State.doReset (s : State) : State :=
  (((s.setRes .empty).setFlight none).setPins { s.pins with reset := false }).setHost { s.host with fresh := false }

/-- The feature report `0x00 ‖ KEY[0] ‖ ... ‖ KEY[7]`, built from KEY_OUT (30_encoding R44, 43_frame_transaction R74). -/
def State.featureReport (s : State) : List Byte := 0x00 :: (bytes8 s.keyOut).toList

/-- HANDSHAKE's effect: the report goes to the device, best-effort; the unit keeps its state (43_frame_transaction R74,
R75). -/
def State.sendReport (s : State) : State :=
  s.setHost { s.host with reports := s.host.reports ++ [s.featureReport] }

/-- Raise a fault at the host: its read got the fault and no value, and the fault is never cleared; the unit is as it
was (60_exceptions R84). -/
def State.raise (s : State) (r : Fault) : State :=
  s.setHost { s.host with got := .fault r, faults := s.host.faults ++ [r] }

/-- Hand a Reading to the sink (43_frame_transaction R70, 60_exceptions R90). -/
def State.publish (s : State) (r : Reading) : State :=
  s.setHost { s.host with stream := s.host.stream ++ [r], fresh := false }

end Sys2Proof.Machine
end

