-- ==== Sys2Proof/Machine/Checksum.lean ====
section
/-! DEFINITION. The meanings of the checksum validator's rows (41_checksum R57 to R60). -/

namespace Sys2Proof.Machine

/-- SUM (R57). -/
def execSum (s : State) : Host.Outcome State Fault Refusal := s.guarded s.stageSum

/-- TERM_OK (R58). -/
def execTermOk (s : State) : Host.Outcome State Fault Refusal := s.guarded s.stageTermOk

/-- SUM_OK (R59). -/
def execSumOk (s : State) : Host.Outcome State Fault Refusal := s.guarded s.stageSumOk

/-- VALID (R60). -/
def execValid (s : State) : Host.Outcome State Fault Refusal := s.guarded s.stageValid

end Sys2Proof.Machine
end

