-- ==== Sys2Proof/Machine/Deobfuscator.lean ====
section
/-! DEFINITION. The meanings of the deobfuscator's rows (40_deobfuscator R47 to R53). Each evaluates its stage on the
transaction in flight; they are "part of every FRAME transaction" (spec/opcode_table.json). -/

namespace Sys2Proof.Machine

/-- PERMUTE (R47). -/
def execPermute (s : State) : Host.Outcome State Fault Refusal := s.guarded s.stagePermute

/-- XORKEY (R48). -/
def execXorkey (s : State) : Host.Outcome State Fault Refusal := s.guarded s.stageXorkey

/-- ROTATE (R49). -/
def execRotate (s : State) : Host.Outcome State Fault Refusal := s.guarded s.stageRotate

/-- ADJUST (R51). -/
def execAdjust (s : State) : Host.Outcome State Fault Refusal := s.guarded s.stageAdjust

/-- SUBTRACT (R52). -/
def execSubtract (s : State) : Host.Outcome State Fault Refusal := s.guarded s.stageSubtract

/-- DEOBFUSCATE (R53). -/
def execDeobfuscate (s : State) : Host.Outcome State Fault Refusal := s.guarded s.stageDeobfuscate

end Sys2Proof.Machine
end

