-- ==== Sys2Proof/Machine/FrameDecoder.lean ====
section
/-! DEFINITION. The meanings of the frame decoder's rows: DISPATCH and the four DecryptedFrame rows, each of which
latches RES as its branch of the transaction does (42_frame_decoder R63 to R67, 60_exceptions R77, 43 R69). -/

namespace Sys2Proof.Machine

/-- DISPATCH (R63). -/
def execDispatch (s : State) : Host.Outcome State Fault Refusal := s.guarded s.stageDispatch

/-- CO2 (R64). -/
def execCo2 (p : BitVec 16) (r5 r6 r7 : Byte) (s : State) : Host.Outcome State Fault Refusal :=
  s.guarded (s.pathCo2 p r5 r6 r7)

/-- TEMP (R65, R66). -/
def execTemp (p : BitVec 16) (r5 r6 r7 : Byte) (s : State) : Host.Outcome State Fault Refusal :=
  s.guarded (s.pathTemp p r5 r6 r7)

/-- NOREAD (R67). -/
def execNoread (op : Byte) (p : BitVec 16) (r5 r6 r7 : Byte) (s : State) : Host.Outcome State Fault Refusal :=
  s.guarded (s.pathNoread op p r5 r6 r7)

/-- BADFRAME (60_exceptions R77). -/
def execBadframe (out : Lanes Byte) (s : State) : Host.Outcome State Fault Refusal :=
  s.guarded (s.pathBadframe out)

end Sys2Proof.Machine
end

