-- ==== Sys2Proof/Machine/Transaction.lean ====
section
/-! DEFINITION. The meanings of the transaction and host rows: FRAME, FRAME.PLAIN, RESET, HANDSHAKE, YIELD
(43_frame_transaction R69, R70, R74; 30_encoding R45; 70_reset_and_hazards R94). -/

namespace Sys2Proof.Machine

/-- FRAME: one transaction (R69). -/
def execFrame (frameIn : BitVec 64) (s : State) : Host.Outcome State Fault Refusal :=
  s.guarded (s.transact frameIn)

/-- FRAME.PLAIN: expands to FRAME of `word64(OBF(bytes8(plain)))` (30_encoding R45). -/
def execFramePlain (plain : BitVec 64) (s : State) : Host.Outcome State Fault Refusal :=
  s.guarded (s.transact (word64 (obfuscate s.cfg (bytes8 plain))))

/-- RESET (70_reset_and_hazards R94). -/
def execReset (s : State) : Host.Outcome State Fault Refusal := .next s.doReset

/-- HANDSHAKE: the host writes the feature report to the device; the unit keeps its state (43_frame_transaction R74). -/
def execHandshake (s : State) : Host.Outcome State Fault Refusal :=
  .next s.sendReport

/-- YIELD: the host obtains the Reading of a READING verdict, once for each (43_frame_transaction R70, 60_exceptions
R90); any other verdict yields nothing. -/
def execYield (s : State) : Host.Outcome State Fault Refusal :=
  match s.res.readingOf with
  | some r => if s.host.fresh then .next (s.publish r) else .next s
  | none => .next s

end Sys2Proof.Machine
end

