-- ==== Sys2Proof/Machine/Dispatch.lean ====
section
/-! DEFINITION. One arm per row of the opcode table. -/

namespace Sys2Proof.Machine

def exec (i : Instr) (s : State) : Host.Outcome State Fault Refusal :=
  match i with
  | .co2 p r5 r6 r7 => Sys2Proof.Machine.execCo2 p r5 r6 r7 s
  | .temp p r5 r6 r7 => Sys2Proof.Machine.execTemp p r5 r6 r7 s
  | .noread op p r5 r6 r7 => Sys2Proof.Machine.execNoread op p r5 r6 r7 s
  | .badframe out => Sys2Proof.Machine.execBadframe out s
  | .frame w => Sys2Proof.Machine.execFrame w s
  | .framePlain w => Sys2Proof.Machine.execFramePlain w s
  | .reset => Sys2Proof.Machine.execReset s
  | .handshake => Sys2Proof.Machine.execHandshake s
  | .yield => Sys2Proof.Machine.execYield s
  | .permute => Sys2Proof.Machine.execPermute s
  | .xorkey => Sys2Proof.Machine.execXorkey s
  | .rotate => Sys2Proof.Machine.execRotate s
  | .adjust => Sys2Proof.Machine.execAdjust s
  | .subtract => Sys2Proof.Machine.execSubtract s
  | .deobfuscate => Sys2Proof.Machine.execDeobfuscate s
  | .sum => Sys2Proof.Machine.execSum s
  | .termOk => Sys2Proof.Machine.execTermOk s
  | .sumOk => Sys2Proof.Machine.execSumOk s
  | .valid => Sys2Proof.Machine.execValid s
  | .dispatch => Sys2Proof.Machine.execDispatch s

end Sys2Proof.Machine
end

