-- ==== Sys2Proof/Machine/Fetch.lean ====
section
/-! DEFINITION. What the machine does next. The unit fetches no instruction (10_state R19): its next action is set by
its input signals and by the host's next move (60_exceptions section 4; log entry 5). -/

namespace Sys2Proof.Machine

/-- The next action: run an instruction on a state, or an outcome that needs none. -/
inductive Action where
  | run (i : Instr) (s : State)
  | done (o : Host.Outcome State Fault Refusal)

/-- Whether a host drives this port; the DecryptedFrame stands inside the unit (60_exceptions R92). -/
def hostDriven (p : Port) : Bool :=
  match p with
  | .frameIn => true
  | .plain => true
  | .resetLine => true
  | .report => true
  | .verdict => true
  | .out => false

/-- Take a script line: decode it and run its instruction, or refuse it by name. -/
def fetchLine (l : Line) (s : State) : Action :=
  if hostDriven l.port then
    match decode l with
    | .ok i => .run i s
    | .error e => .done (.refused (.badOffer e))
  else .done (.refused (.notHostDriven l.port))

/-- A host read of a RES field; it has no side effect on the unit (20_memory R29). A read of an undefined field gives
the host no value: it raises its fault, which stays recorded and ends nothing (60_exceptions R84). -/
def hostRead (f : ResField) (s : State) : Host.Outcome State Fault Refusal :=
  match s.res.read f with
  | .ok w => .next (s.setHost { s.host with got := .res f w })
  | .error e => .next (s.raise e)

/-- A host read of KEY_OUT (10_state R14, 20_memory R29). -/
def hostReadKey (s : State) : Host.Outcome State Fault Refusal :=
  .next (s.setHost { s.host with got := .key s.keyOut })

/-- Carry out one move of the host, already taken from the script. -/
def fetchMove (m : HostMove) (s : State) : Action :=
  match m with
  | .line l => fetchLine l s
  | .readRes f => .done (hostRead f s)
  | .readKey => .done (hostReadKey s)

/-- No move of the host: a transaction in flight completes (43_frame_transaction R69), and an idle unit holds RES and
changes nothing (60_exceptions R93). -/
def quiet (s : State) : Host.Outcome State Fault Refusal :=
  match s.flight with
  | none => .next s
  | some _ => s.guarded s.complete

/-- The next action: an asserted RESET first (70_reset_and_hazards R94, R103), then a frame offered on FRAME_IN (10_state
R14), then the host's next move. -/
def fetch (s : State) : Action :=
  if s.pins.reset then .run .reset s
  else if s.pins.inValid then .run (.frame s.pins.frameIn) s
  else
    match s.host.script with
    | m :: rest => fetchMove m (s.setHost { s.host with script := rest })
    | [] => .done (quiet s)

/-- The state in which an opcode-table word is the next thing presented. A DecryptedFrame's word is offered as the
RawFrame that deobfuscates to it (30_encoding, preamble; 40_deobfuscator R56); a level of RESET stands on the signal; a
host operation's word is the host's next move. -/
def placeWord (s : State) (nbits w : Nat) : State :=
  let l := tableLine nbits w
  match l.port with
  | .out =>
    s.setPins ⟨false, word64 (obfuscate s.cfg (bytes8 (BitVec.ofNat 64 (w % 2 ^ nbits)))), true⟩
  | .resetLine => s.setPins { s.pins with reset := w = 1 }
  | .frameIn => s
  | .plain => s
  | .report => (s.setPins ⟨false, s.pins.frameIn, false⟩).setHost { s.host with script := .line l :: s.host.script }
  | .verdict => s

end Sys2Proof.Machine
end

