-- ==== Sys2Proof/Machine/Script.lean ====
section
/-! DEFINITION. The text forms of 30_encoding R45: the frame-script lines and the disassembly of a DecryptedFrame. -/

namespace Sys2Proof.Machine

/-- The sixteen hexadecimal digits of R45, each at the place of its value. -/
def hexDigits : List Char :=
  ['0', '1', '2', '3', '4', '5', '6', '7', '8', '9'] ++ ['A', 'B', 'C', 'D', 'E', 'F']

/-- The value of a hexadecimal digit: its place among the sixteen, whatever its letter case (log entry 17). -/
def hexValue (c : Char) : Option Nat := hexDigits.idxOf? c.toUpper

/-- The number that hexadecimal digits write, most significant first. -/
def hexNumber (acc : Nat) (digits : List Char) : Option Nat :=
  match digits with
  | [] => some acc
  | c :: rest =>
    match hexValue c with
    | some v => hexNumber (16 * acc + v) rest
    | none => none

/-- `0x` and exactly 16 hexadecimal digits: a 64-bit value (R45). -/
def hexOperand (text : List Char) : Option (BitVec 64) :=
  match text with
  | '0' :: 'x' :: digits =>
    if digits.length = 16 then (hexNumber 0 digits).map (BitVec.ofNat 64) else none
  | _ => none

/-- The keyword of a line and what follows it. -/
def afterKeyword (keyword text : List Char) : Option (List Char) :=
  if keyword.isPrefixOf text then some (text.drop keyword.length) else none

/-- The words of the frame script (R45). -/
def kwFramePlain : List Char := ['F', 'R', 'A', 'M', 'E', '.', 'P', 'L', 'A', 'I', 'N', ' ']
def kwFrame : List Char := ['F', 'R', 'A', 'M', 'E', ' ']
def kwReset : List Char := ['R', 'E', 'S', 'E', 'T']
def kwHandshake : List Char := ['H', 'A', 'N', 'D', 'S', 'H', 'A', 'K', 'E']

/-- The instruction that a script line writes (R45). -/
def assemble (text : List Char) : Option Instr :=
  if text = kwReset then some .reset
  else if text = kwHandshake then some .handshake
  else
    match afterKeyword kwFramePlain text with
    | some rest => (hexOperand rest).map .framePlain
    | none =>
      match afterKeyword kwFrame text with
      | some rest => (hexOperand rest).map .frame
      | none => none

/-- A script line as the host's move: the word of its instruction. -/
def scriptMove (text : List Char) : Option HostMove :=
  match assemble text with
  | some i => (encode i).map .line
  | none => none

/-- The hexadecimal digit of a 4-bit value, in capitals as R45 writes them. -/
def hexDigit (v : BitVec 4) : Char := hexDigits.getD v.toNat '0'

/-- A byte as two hexadecimal digits. -/
def hexByte (b : Byte) : List Char := [hexDigit (b.extractLsb' 4 4), hexDigit (b.extractLsb' 0 4)]

/-- A 64-bit value as `0x` and 16 hexadecimal digits, byte 0 first (R45, 20_memory R24). -/
def hexWord (w : BitVec 64) : List Char := ['0', 'x'] ++ (bytes8 w).toList.flatMap hexByte

/-- A flag as 0 or 1. -/
def flagChar (b : Bool) : Char := if b then '1' else '0'

/-- The disassembly of a DecryptedFrame (R45). -/
def disassemble (out : Lanes Byte) : List Char :=
  if valid out then
    if opcode out = opCo2 then ['C', 'O', '2', ' '] ++ Nat.toDigits 10 (payload out).toNat
    else if opcode out = opTemp then ['T', 'E', 'M', 'P', ' '] ++ Nat.toDigits 10 (payload out).toNat
    else ['N', 'O', 'R', 'E', 'A', 'D', ' ', 'o', 'p', '=', '0', 'x'] ++ hexByte (opcode out)
  else
    ['B', 'A', 'D', 'F', 'R', 'A', 'M', 'E', ' ', 't', 'e', 'r', 'm', '='] ++ [flagChar (termOk out)] ++
      [' ', 's', 'u', 'm', '='] ++ [flagChar (sumOk (checksum out) out)]

end Sys2Proof.Machine
end

