-- ==== Sys2Proof/Machine/Stream.lean ====
section
/-! DEFINITION. The host's session over the device adapter's results: open, handshake, then the skip loop
(70_reset_and_hazards R98 steps 3 to 5; 43_frame_transaction R72, R73, R75; 60_exceptions R88, R89). It stands beside the
machine: no step of the unit uses it. -/

namespace Sys2Proof.Machine

/-- What the adapter's `read` returns: a RawFrame, a timeout or an I/O error (60_exceptions R88). The error values are not
in the source (91_not_in_source N10): a number stands for one. -/
inductive AdapterResult where
  | frame (raw : BitVec 64)
  | timeout
  | ioError (e : Nat)
  deriving DecidableEq, Repr

/-- The failing step a fatal diagnostic names (60_exceptions R89). -/
inductive HostStep where
  | openDevice
  | handshake
  | read
  deriving DecidableEq, Repr

/-- The host's policy on an event (60_exceptions R89): read again or go on, or end the stream naming the step. -/
inductive HostPolicy where
  | goOn
  | fatal (step : HostStep)
  deriving DecidableEq, Repr

/-- The host events of the policy's table, row by row (60_exceptions R89). -/
inductive DeviceEvent where
  /-- `read` returns `Timeout`. -/
  | readTimeout
  /-- `read` returns a transient `IoError`. -/
  | readTransient
  /-- A confirmed device disconnect, at the step that met it. -/
  | disconnected (step : HostStep)
  /-- `open` fails. -/
  | openFailed
  /-- `write_feature_report` fails. -/
  | reportFailed
  deriving DecidableEq, Repr

/-- The host's device-error policy (60_exceptions R89, 92_eei_decisions D16). -/
def hostPolicy (e : DeviceEvent) : HostPolicy :=
  match e with
  | .readTimeout => .goOn
  | .readTransient => .goOn
  | .disconnected step => .fatal step
  | .openFailed => .fatal .openDevice
  | .reportFailed => .goOn

/-- The event an I/O error at a step is. Which errors mean a disconnect is the open parameter `isFatal` (60_exceptions
R89, 92_eei_decisions D23). -/
def errorEvent (isFatal : Nat → Bool) (step : HostStep) (e : Nat) : DeviceEvent :=
  if isFatal e then .disconnected step
  else
    match step with
    | .openDevice => .openFailed
    | .handshake => .reportFailed
    | .read => .readTransient

/-- How the adapter's `open` and `write_feature_report` end (60_exceptions R88, R89); a failure carries an error value
(log entry 15). -/
inductive CallResult where
  | done
  | failed (e : Nat)
  deriving DecidableEq, Repr

/-- The policy on the result of a call (60_exceptions R89). -/
def callPolicy (isFatal : Nat → Bool) (step : HostStep) (r : CallResult) : HostPolicy :=
  match r with
  | .done => .goOn
  | .failed e => hostPolicy (errorEvent isFatal step e)

/-- How the start of a session ends. -/
inductive SessionStart where
  /-- The read loop starts from this state. -/
  | ready (s : State)
  /-- A fatal device error, naming the failing step. -/
  | fatal (step : HostStep) (s : State)
  deriving DecidableEq, Repr

/-- The start of a session: the host opens the device, then writes the feature report, then may read
(70_reset_and_hazards R98 steps 3 to 5). The write is recorded whether or not it succeeds (log entry 15). -/
def startSession (isFatal : Nat → Bool) (opened written : CallResult) (s : State) : SessionStart :=
  match callPolicy isFatal .openDevice opened with
  | .fatal step => .fatal step s
  | .goOn =>
    match callPolicy isFatal .handshake written with
    | .fatal step => .fatal step s.sendReport
    | .goOn => .ready s.sendReport

/-- How a call of `next_reading()` ends on the adapter's results at hand. -/
inductive LoopEnd where
  /-- A transaction yielded; the unit's state and the results not yet used. -/
  | reading (r : Reading) (s : State) (rest : List AdapterResult)
  /-- A fatal device error, naming the failing step. -/
  | fatal (step : HostStep) (s : State)
  /-- The results ran out before a transaction yielded: the loop waits for the adapter. -/
  | waiting (s : State)
  /-- The unit refused the frame. -/
  | refused (r : Refusal)
  /-- The unit faulted on the frame. -/
  | fault (r : Fault)
  deriving DecidableEq, Repr

/-- `next_reading()`: offer frames until a transaction yields (43_frame_transaction R72). The recursion is on the list of
results, so it is the loop the rule asks for, not a call stack. -/
def nextReading (isFatal : Nat → Bool) (results : List AdapterResult) (s : State) : LoopEnd :=
  match results with
  | [] => .waiting s
  | .timeout :: rest =>
    match hostPolicy .readTimeout with
    | .goOn => nextReading isFatal rest s
    | .fatal step => .fatal step s
  | .ioError e :: rest =>
    match hostPolicy (errorEvent isFatal .read e) with
    | .goOn => nextReading isFatal rest s
    | .fatal step => .fatal step s
  | .frame raw :: rest =>
    match execFrame raw s with
    | .next t =>
      match t.res.readingOf with
      | some r => .reading r t rest
      | none => nextReading isFatal rest t
    | .fault r => .fault r
    | .refused r => .refused r

end Sys2Proof.Machine
end

