-- ==== Sys2Proof/Machine/Unit.lean ====
section
/-! DEFINITION. The machine of a unit built with any tables (70_reset_and_hazards R95). -/

namespace Sys2Proof.Machine

/-- The unit built with the tables `c`: the same step, started from its own power-on state (R95). For the default
instance it is `Sys2Proof.core`. -/
def machineOf (c : Config) : Host.Core :=
  { State := State, Fault := Fault, Refusal := Refusal, step := step, reset := State.powerOn c }

end Sys2Proof.Machine
end

