-- ==== Sys2Proof/Safety.lean ====
section
/-! DEFINITION. What a sound state is: the invariants that claims are stated with. -/

namespace Sys2Proof.Machine

/-- A latch that says what the frame it holds deserves (10_state R16, R17; 41_checksum R60; 42_frame_decoder R63;
43_frame_transaction R69, R71). -/
def Res.faithful (mode : TempEval) (r : Res) : Prop :=
  match r with
  | .empty => True
  | .discardChecksum tok sok frame p =>
    valid (bytes8 frame) = false ∧ tok = Machine.termOk (bytes8 frame) ∧
      sok = Machine.sumOk (checksum (bytes8 frame)) (bytes8 frame) ∧ p = Machine.payload (bytes8 frame)
  | .discardUnrecognized frame p =>
    valid (bytes8 frame) = true ∧ unrecognized (opcode (bytes8 frame)) = true ∧ p = Machine.payload (bytes8 frame)
  | .reading frame p rd =>
    valid (bytes8 frame) = true ∧ decodeReading mode (bytes8 frame) = some rd ∧ p = Machine.payload (bytes8 frame)

/-- The fields a verdict and a kind define, row by row of the table of 10_state R17. A READING never has kind NONE. -/
def definedFields (v : Verdict) (k : Kind) : List ResField :=
  match v, k with
  | .empty, _ => [.verdict]
  | .discardChecksum, _ => [.verdict, .termOk, .sumOk, .frame, .payload, .kind]
  | .discardUnrecognized, _ => [.verdict, .termOk, .sumOk, .frame, .payload, .kind]
  | .reading, .co2 => [.verdict, .termOk, .sumOk, .frame, .payload, .kind, .co2Ppm]
  | .reading, .temperature => [.verdict, .termOk, .sumOk, .frame, .payload, .kind, .tempC]
  | .reading, .none => [.verdict, .termOk, .sumOk, .frame, .payload, .kind]

/-- The latch shows that its Reading is genuine: the DecryptedFrame it holds passes validation, and the Reading is what
that frame decodes to (43_frame_transaction R71). -/
def Res.genuine (mode : TempEval) (res : Res) (r : Reading) : Prop :=
  ∃ frame p, res = .reading frame p r ∧ valid (bytes8 frame) = true ∧ decodeReading mode (bytes8 frame) = some r

/-- The configuration is one the spec accepts, and ADJ is the table derived from CSTATE (00_scope R3, 10_state R13). -/
def State.configured (s : State) : Prop :=
  permBijective s.cfg.perm = true ∧ s.adj = adjust s.cfg.cstate

/-- The invariant of the machine: an accepted configuration, nothing in flight between steps (70_reset_and_hazards R100:
"`IN_READY = 0` is never seen between steps"), and a faithful latch. -/
def State.sound (s : State) : Prop :=
  s.configured ∧ s.inReady = true ∧ s.res.faithful s.cfg.tempEval

/-- The rational number of a fraction. -/
def Frac.toRat (x : Frac) : ℚ := (x.num : ℚ) / (x.den : ℚ)

/-- Whether a number is the bit pattern of a finite value of the format. -/
def Fmt.finite (F : Fmt) (bits : Nat) : Prop := bits < 2 * F.signBit ∧ bits % F.signBit < F.inf

/-- How far a bit pattern's value is from `x`. -/
def Fmt.error (F : Fmt) (x : ℚ) (bits : Nat) : ℚ := |(F.value bits).toRat - x|

/-- Round to nearest, ties to even (00_scope section 5): a finite pattern such that no finite pattern is nearer to `x`,
and whose significand is even if the pattern of another value is as near. -/
def Fmt.nearest (F : Fmt) (x : ℚ) (bits : Nat) : Prop :=
  F.finite bits ∧ ∀ other, F.finite other →
    F.error x bits ≤ F.error x other ∧
    (F.error x bits = F.error x other → (F.value bits).toRat = (F.value other).toRat ∨ bits % 2 = 0)

/-- Adapter results the skip loop goes past: no frame among them yields, and no error among them is fatal
(43_frame_transaction R72, 60_exceptions R89). -/
def skippable (isFatal : Nat → Bool) (cfg : Config) (results : List AdapterResult) : Prop :=
  (∀ w, .frame w ∈ results → (resultOf cfg.tempEval (deobfuscate cfg (bytes8 w))).readingOf = none) ∧
    ∀ e, .ioError e ∈ results → isFatal e = false

/-- The states a machine passes through from a state. -/
inductive State.reaches (s : State) : State → Prop where
  | start : State.reaches s s
  | next {t u : State} (h : State.reaches s t) (hs : step t = .next u) : State.reaches s u

/-- Run instructions in order, each on the state the one before left; a fault or a refusal ends the run. -/
def execAll (is : List Instr) (s : State) : Host.Outcome State Fault Refusal :=
  match is with
  | [] => .next s
  | i :: rest =>
    match exec i s with
    | .next t => execAll rest t
    | .fault r => .fault r
    | .refused r => .refused r

/-- The datapath rows in the order of 43_frame_transaction R69. -/
def stageRows : List Instr :=
  [.permute, .xorkey, .rotate, .adjust, .subtract, .sum, .termOk, .sumOk, .valid, .dispatch]

end Sys2Proof.Machine
end

