-- ==== Sys2Proof/Certificates/Slice0/Obligations.lean ====
section
/-! DEFINITION. The statements for the provers, in the order of the spec's files. Each docstring names the rule it
formalises. A state with an accepted configuration is one with `permBijective s.cfg.perm = true` (60_exceptions R83). -/

open Sys2Proof Sys2Proof.Machine

/-! ### Encoding and decoding -/

/-- Decoding the word of a well-formed instruction gives it back (30_encoding R36 to R45; both from the opcode table). -/
def Obligations.DecodeOfEncodeIsTheInstruction : Prop :=
  ∀ (i : Instr) (l : Line), i.wellFormed = true → encode i = some l → decode l = .ok i

/-- Every word the decoder accepts is the word of the well-formed instruction it answers. -/
def Obligations.EncodeOfDecodeIsTheWord : Prop :=
  ∀ (l : Line) (i : Instr), decode l = .ok i → i.wellFormed = true ∧ encode i = some l

/-- 30_encoding R42 with R39: a DecryptedFrame is in exactly one class, by validity first and then by its opcode. -/
def Obligations.EveryDecryptedFrameHasOneClass : Prop :=
  ∀ out : Lanes Byte,
    (classify out = .badframe out ↔ ¬ (out.l4 = 0x0D ∧ out.l0 + out.l1 + out.l2 = out.l3)) ∧
    ((∃ p r5 r6 r7, classify out = .co2 p r5 r6 r7) ↔
      out.l4 = 0x0D ∧ out.l0 + out.l1 + out.l2 = out.l3 ∧ out.l0 = 0x50) ∧
    ((∃ p r5 r6 r7, classify out = .temp p r5 r6 r7) ↔
      out.l4 = 0x0D ∧ out.l0 + out.l1 + out.l2 = out.l3 ∧ out.l0 = 0x42) ∧
    ((∃ op p r5 r6 r7, classify out = .noread op p r5 r6 r7) ↔
      out.l4 = 0x0D ∧ out.l0 + out.l1 + out.l2 = out.l3 ∧ out.l0 ≠ 0x50 ∧ out.l0 ≠ 0x42)

/-- Words written out decode to the instructions they stand for: the five frames are the spec's (30_encoding R36, R37,
R39; the vectors T7, T13 and T16); that RESET has a word, the byte 0x01, is the model's choice (log entry 11). -/
def Obligations.WordsOfTheSpecDecode : Prop :=
  decode ⟨.out, [0x50, 0x03, 0xF5, 0x48, 0x0D, 0xAA, 0x55, 0xFF]⟩ = .ok (.co2 0x03F5 0xAA 0x55 0xFF) ∧
  decode ⟨.out, [0x42, 0x11, 0x1F, 0x72, 0x0D, 0, 0, 0]⟩ = .ok (.temp 0x111F 0 0 0) ∧
  decode ⟨.out, [0x6E, 0x60, 0xA0, 0x6E, 0x0D, 0, 0, 0]⟩ = .ok (.noread 0x6E 0x60A0 0 0 0) ∧
  decode ⟨.out, [0x51, 0x03, 0xF5, 0x48, 0x0D, 0, 0, 0]⟩ = .ok (.badframe ⟨0x51, 0x03, 0xF5, 0x48, 0x0D, 0, 0, 0⟩) ∧
  decode ⟨.frameIn, [0x98, 0xE4, 0x66, 0x20, 0x94, 0x46, 0xBF, 0x62]⟩ = .ok (.frame 0x98E466209446BF62) ∧
  decode ⟨.resetLine, [0x01]⟩ = .ok .reset

/-- 30_encoding R45: the script line `FRAME 0x<16 hex digits>` is FRAME of that value, and `FRAME.PLAIN 0x<16 hex
digits>` is FRAME.PLAIN of it. -/
def Obligations.ScriptLinesReadBack : Prop :=
  ∀ w : BitVec 64,
    assemble (kwFrame ++ hexWord w) = some (.frame w) ∧ assemble (kwFramePlain ++ hexWord w) = some (.framePlain w)

/-! ### Configuration -/

/-- 00_scope R3: the check the unit refuses a configuration by is bijectivity of PERM on 0..7. -/
def Obligations.PermutationCheckIsBijectivity : Prop :=
  ∀ perm : Lanes (Fin 8), permBijective perm = true ↔ Function.Bijective perm.get

/-- 60_exceptions section 2 (that the refusal covers each row is log entry 12): with a PERM that is no bijection, no transaction and no stage or row of one has a meaning. -/
def Obligations.InvalidPermutationIsRefused : Prop :=
  ∀ (s : State), ¬ Function.Bijective s.cfg.perm.get →
    ∀ i : Instr, i ≠ .reset → i ≠ .handshake → i ≠ .yield →
      exec i s = .refused (.configInvalid .permNotBijection)

/-- 00_scope R5: no instruction and no step writes KEY, PERM, CSTATE or the parameter tempEval. -/
def Obligations.ConfigurationIsNeverWritten : Prop :=
  ∀ (s t : State), (∀ i : Instr, exec i s = .next t → t.cfg = s.cfg) ∧ (step s = .next t → t.cfg = s.cfg)

/-! ### The deobfuscator -/

/-- 40_deobfuscator R47: `INTER[PERM[i]] <- RAW[i]`, and a PERM that is not a bijection is refused. -/
def Obligations.PermuteMovesEachByteToItsIndex : Prop :=
  ∀ (s : State) (f : Flight), s.flight = some f →
    (permBijective s.cfg.perm = true →
      ∃ inter : Lanes Byte, (∀ i, inter.get (s.cfg.perm.get i) = f.raw.get i) ∧
        exec .permute s = .next { s with flight := some { f with inter := some inter } }) ∧
    (permBijective s.cfg.perm = false → exec .permute s = .refused (.configInvalid .permNotBijection))

/-- 40_deobfuscator R48: `XORED[i] <- INTER[i] ^ KEY[i]`, lane by lane. -/
def Obligations.XorkeyXorsEachLaneWithTheKey : Prop :=
  ∀ (s : State) (f : Flight) (inter : Lanes Byte), permBijective s.cfg.perm = true → s.flight = some f →
    f.inter = some inter →
    ∃ xored : Lanes Byte, (∀ i, xored.get i = inter.get i ^^^ s.cfg.key.get i) ∧
      exec .xorkey s = .next { s with flight := some { f with xored := some xored } }

/-- 40_deobfuscator R49: `ROTATED[i] <- ((XORED[i] >> 3) | (XORED[(i + 7) mod 8] << 5)) & 0xFF` on unbounded numbers. -/
def Obligations.RotateTakesHighBitsAndThePreviousLowBits : Prop :=
  ∀ (s : State) (f : Flight) (xored : Lanes Byte), permBijective s.cfg.perm = true → s.flight = some f →
    f.xored = some xored →
    ∃ rotated : Lanes Byte,
      (∀ i : Fin 8, (rotated.get i).toNat =
        ((xored.get i).toNat >>> 3 ||| (xored.get (i + 7)).toNat <<< 5) &&& 0xFF) ∧
      exec .rotate s = .next { s with flight := some { f with rotated := some rotated } }

/-- The spec's own derivation (40_deobfuscator, stage R, the rule that follows ROTATE): stage R is a right rotation of the packed word by 3. -/
def Obligations.RotateIsRor64ByThree : Prop :=
  ∀ xored : Lanes Byte, word64 (rotate xored) = (word64 xored).rotateRight 3

/-- 40_deobfuscator R51: `ADJ[i] <- ((CSTATE[i] >> 4) | (CSTATE[i] << 4)) & 0xFF`, whatever is in flight. -/
def Obligations.AdjustSwapsTheNibblesOfCstate : Prop :=
  ∀ s : State, permBijective s.cfg.perm = true →
    ∃ adj : Lanes Byte,
      (∀ i : Fin 8, (adj.get i).toNat =
        ((s.cfg.cstate.get i).toNat >>> 4 ||| (s.cfg.cstate.get i).toNat <<< 4) &&& 0xFF) ∧
      exec .adjust s = .next { s with adj := adj }

/-- 40_deobfuscator R52: `OUT[i] <- (0x100 + ROTATED[i] - ADJ[i]) & 0xFF`, no borrow between lanes. -/
def Obligations.SubtractWrapsInEachLane : Prop :=
  ∀ (s : State) (f : Flight) (rotated : Lanes Byte), permBijective s.cfg.perm = true → s.flight = some f →
    f.rotated = some rotated →
    ∃ out : Lanes Byte,
      (∀ i : Fin 8, (out.get i).toNat = (0x100 + (rotated.get i).toNat - (s.adj.get i).toNat) &&& 0xFF) ∧
      exec .subtract s = .next { s with flight := some { f with out := some out } }

/-- 40_deobfuscator R53: the stages in their order on a transaction in flight, ADJ from CSTATE. -/
def Obligations.DeobfuscateRunsItsStagesInOrder : Prop :=
  ∀ (s : State) (f : Flight), permBijective s.cfg.perm = true → s.flight = some f →
    execAll [.permute, .xorkey, .rotate, .adjust, .subtract] s = exec .deobfuscate s ∧
    exec .deobfuscate s = .next { s with
      adj := adjust s.cfg.cstate
      flight := some { f with
        inter := some (permute s.cfg.perm f.raw)
        xored := some (xorKey s.cfg.key (permute s.cfg.perm f.raw))
        rotated := some (rotate (xorKey s.cfg.key (permute s.cfg.perm f.raw)))
        out := some (subtract (adjust s.cfg.cstate) (rotate (xorKey s.cfg.key (permute s.cfg.perm f.raw)))) } }

/-- The spec's own derivation (40_deobfuscator, the composed operation, "Bijectivity"): for a well-formed configuration `deobfuscate` is a bijection of the 8-byte values. -/
def Obligations.DeobfuscateIsABijection : Prop :=
  ∀ cfg : Config, permBijective cfg.perm = true → Function.Bijective (deobfuscate cfg)

/-- The spec's own derivation (40_deobfuscator, the composed operation, "OBF, the inverse"): OBF is the inverse of `deobfuscate` on both sides. -/
def Obligations.ObfIsTheInverseOfDeobfuscate : Prop :=
  ∀ (cfg : Config) (a : Lanes Byte), permBijective cfg.perm = true →
    deobfuscate cfg (obfuscate cfg a) = a ∧ obfuscate cfg (deobfuscate cfg a) = a

/-! ### The validator -/

/-- 41_checksum R57: `SUM = (OUT[0] + OUT[1] + OUT[2]) mod 256`. -/
def Obligations.SumIsTheFirstThreeBytesModulo256 : Prop :=
  ∀ (s : State) (f : Flight) (out : Lanes Byte), permBijective s.cfg.perm = true → s.flight = some f →
    f.out = some out →
    ∃ sum : Byte, sum.toNat = (out.l0.toNat + out.l1.toNat + out.l2.toNat) % 256 ∧
      exec .sum s = .next { s with flight := some { f with sum := some sum } }

/-- 41_checksum R58 and R59: TERM_OK compares `OUT[4]` with 0x0D, SUM_OK compares SUM with `OUT[3]`. -/
def Obligations.CheckFlagsCompareWholeBytes : Prop :=
  ∀ (s : State) (f : Flight) (out : Lanes Byte), permBijective s.cfg.perm = true → s.flight = some f →
    f.out = some out →
    exec .termOk s = .next { s with flight := some { f with termOk := some (decide (out.l4 = 0x0D)) } } ∧
    ∀ sum : Byte, f.sum = some sum →
      exec .sumOk s = .next { s with flight := some { f with sumOk := some (decide (sum = out.l3)) } }

/-- 41_checksum R60: VALID is TERM_OK and SUM_OK; the row writes nothing else. -/
def Obligations.ValidIsBothFlags : Prop :=
  ∀ (s : State) (f : Flight) (tok sok : Bool), permBijective s.cfg.perm = true → s.flight = some f →
    f.termOk = some tok → f.sumOk = some sok →
    ∃ v : Bool, (v = true ↔ tok = true ∧ sok = true) ∧
      exec .valid s = .next { s with flight := some { f with valid := some v } }

/-! ### The frame decoder -/

/-- 42_frame_decoder R63: the decode result is selected by all 8 bits of `OUT[0]`, with the payload big-endian (R38). -/
def Obligations.DispatchSelectsByTheOpcode : Prop :=
  ∀ (s : State) (f : Flight) (out : Lanes Byte), permBijective s.cfg.perm = true → s.flight = some f →
    f.out = some out →
    ∃ p : BitVec 16, p.toNat = out.l1.toNat * 256 + out.l2.toNat ∧
      exec .dispatch s = .next { s with flight := some { f with
        decoded := some (if out.l0 = 0x50 then some (.co2 p)
          else if out.l0 = 0x42 then some (.temperature (tempC s.cfg.tempEval p)) else none) } }

/-- 42_frame_decoder R64: the CO2 row gives VERDICT READING and CO2_PPM = PAYLOAD, with the whole frame latched: opcode
0x50, payload big-endian, checksum, terminator 0x0D and the reserved bytes. -/
def Obligations.Co2RowLatchesThePayload : Prop :=
  ∀ (s : State) (p : BitVec 16) (r5 r6 r7 : Byte), permBijective s.cfg.perm = true →
    ∃ (out : Lanes Byte) (t : State),
      (out.l0 = 0x50 ∧ out.l1.toNat * 256 + out.l2.toNat = p.toNat ∧ out.l3 = out.l0 + out.l1 + out.l2 ∧
        out.l4 = 0x0D ∧ out.l5 = r5 ∧ out.l6 = r6 ∧ out.l7 = r7) ∧
      exec (.co2 p r5 r6 r7) s = .next t ∧ t.res = .reading (word64 out) p (.co2 p) ∧ t.inReady = true

/-- 42_frame_decoder R65: the TEMP row gives VERDICT READING and TEMP_C = temp_c(PAYLOAD), with the whole frame latched. -/
def Obligations.TempRowLatchesTheConversion : Prop :=
  ∀ (s : State) (p : BitVec 16) (r5 r6 r7 : Byte), permBijective s.cfg.perm = true →
    ∃ (out : Lanes Byte) (t : State),
      (out.l0 = 0x42 ∧ out.l1.toNat * 256 + out.l2.toNat = p.toNat ∧ out.l3 = out.l0 + out.l1 + out.l2 ∧
        out.l4 = 0x0D ∧ out.l5 = r5 ∧ out.l6 = r6 ∧ out.l7 = r7) ∧
      exec (.temp p r5 r6 r7) s = .next t ∧
      t.res = .reading (word64 out) p (.temperature (tempC s.cfg.tempEval p)) ∧ t.inReady = true

/-- 42_frame_decoder R67: the NOREAD row gives VERDICT DISCARD_UNRECOGNIZED, KIND NONE and no reading, for each of the 254
other opcodes. -/
def Obligations.NoreadRowLatchesNoReading : Prop :=
  ∀ (s : State) (op : Byte) (p : BitVec 16) (r5 r6 r7 : Byte), permBijective s.cfg.perm = true →
    op ≠ 0x50 → op ≠ 0x42 →
    ∃ (out : Lanes Byte) (t : State),
      (out.l0 = op ∧ out.l1.toNat * 256 + out.l2.toNat = p.toNat ∧ out.l3 = out.l0 + out.l1 + out.l2 ∧
        out.l4 = 0x0D ∧ out.l5 = r5 ∧ out.l6 = r6 ∧ out.l7 = r7) ∧
      exec (.noread op p r5 r6 r7) s = .next t ∧ t.res = .discardUnrecognized (word64 out) p ∧
      t.res.kind = some .none ∧ t.inReady = true

/-- 60_exceptions R77 and R80: the BADFRAME row gives DISCARD_CHECKSUM and records the frame and both sub-causes. -/
def Obligations.BadframeRowRecordsBothCauses : Prop :=
  ∀ (s : State) (out : Lanes Byte), permBijective s.cfg.perm = true →
    ¬ (out.l4 = 0x0D ∧ out.l0 + out.l1 + out.l2 = out.l3) →
    ∃ (p : BitVec 16) (t : State), p.toNat = out.l1.toNat * 256 + out.l2.toNat ∧
      exec (.badframe out) s = .next t ∧
      t.res = .discardChecksum (decide (out.l4 = 0x0D)) (decide (out.l0 + out.l1 + out.l2 = out.l3)) (word64 out) p ∧
      t.res.kind = some .none ∧ t.inReady = true

/-- The rounding of every operation of 42_frame_decoder R66, in binary32 and in binary64: the result is a finite value
of the format nearest to the exact one, ties to even (00_scope section 5). It holds up to the power of two that leads the
format's largest binade, far above what the conversion meets; that both formats are IEEE 754's is 93_implementation_defined
Part 2. -/
def Obligations.RoundingIsToNearestTiesToEven : Prop :=
  ∀ F : Fmt, F = fmt32 ∨ F = fmt64 → ∀ x : Frac, 0 < x.den → |x.toRat| ≤ 2 ^ (2 ^ (F.expBits - 1) - 1) →
    F.nearest x.toRat (F.round x)

/-- The spec's own derivation (42_frame_decoder, "Properties of the binary32 default"): for payloads 0 to 12562 the result is exactly
`v/16 - 8950579/32768`, nothing rounded. -/
def Obligations.Binary32TemperatureIsExactBelow512 : Prop :=
  ∀ v : BitVec 16, v.toNat ≤ 12562 →
    (fmt32.value (tempC .binary32 v).toNat).num * 32768 =
      ((v.toNat : Int) * 2048 - 8950579) * ((fmt32.value (tempC .binary32 v).toNat).den : Int)

/-- The spec's own derivation (42_frame_decoder, "Properties of the binary32 default"): the result's sign bit is set exactly for payloads 0 to 4370. -/
def Obligations.Binary32TemperatureSign : Prop :=
  ∀ v : BitVec 16, (tempC .binary32 v).msb = true ↔ v.toNat ≤ 4370

/-! ### The transaction -/

/-- 43_frame_transaction R69: one transaction, in every state with an accepted configuration: the frame is sampled,
deobfuscated, validated, then decoded, and RES is written whole. -/
def Obligations.FrameLatchesTheVerdictOfItsFrame : Prop :=
  ∀ (s : State) (w : BitVec 64), permBijective s.cfg.perm = true →
    let out := deobfuscate s.cfg (bytes8 w)
    ∃ (p : BitVec 16) (t : State), p.toNat = out.l1.toNat * 256 + out.l2.toNat ∧ exec (.frame w) s = .next t ∧
      t.inReady = true ∧ t.cfg = s.cfg ∧
      t.res =
        (if out.l4 = 0x0D ∧ out.l0 + out.l1 + out.l2 = out.l3 then
          if out.l0 = 0x50 then .reading (word64 out) p (.co2 p)
          else if out.l0 = 0x42 then .reading (word64 out) p (.temperature (tempC s.cfg.tempEval p))
          else .discardUnrecognized (word64 out) p
        else .discardChecksum (decide (out.l4 = 0x0D)) (decide (out.l0 + out.l1 + out.l2 = out.l3)) (word64 out) p)

/-- A transaction runs the row its DecryptedFrame decodes to (30_encoding section 3, 43_frame_transaction R69). That it
writes ADJ and takes the offer is the model's (log entries 10 and 7). -/
def Obligations.FrameRunsItsDecodedRow : Prop :=
  ∀ (s : State) (w : BitVec 64), permBijective s.cfg.perm = true →
    exec (.frame w) s = exec (classify (deobfuscate s.cfg (bytes8 w))) { s with
      adj := adjust s.cfg.cstate
      pins := { s.pins with frameIn := w, inValid := false } }

/-- The datapath rows executed one by one, in the order of 43_frame_transaction R69, on an accepted frame, followed by
the row the frame decodes to, are the atomic transaction. That a row can be executed on its own is the model's (log
entry 9). -/
def Obligations.StageRowsInOrderAreTheTransaction : Prop :=
  ∀ (s : State) (w : BitVec 64), permBijective s.cfg.perm = true →
    execAll (stageRows ++ [classify (deobfuscate s.cfg (bytes8 w))]) (s.accept w) = exec (.frame w) s

/-- 30_encoding R45: FRAME.PLAIN names the DecryptedFrame it means: after it RES.FRAME is that value, and the verdict
is that of its class. -/
def Obligations.FramePlainLatchesTheFrameItNames : Prop :=
  ∀ (s : State) (w : BitVec 64), permBijective s.cfg.perm = true →
    ∃ t : State, exec (.framePlain w) s = .next t ∧ t.res = resultOf s.cfg.tempEval (bytes8 w) ∧
      t.res.frame = some w ∧ t.flight = none ∧ t.pins.frameIn = word64 (obfuscate s.cfg (bytes8 w))

/-- 10_state R21: the outcome is a function of FRAME_IN and the configuration alone. -/
def Obligations.OutcomeDependsOnFrameAndTablesOnly : Prop :=
  ∀ (s s' : State) (w : BitVec 64), permBijective s.cfg.perm = true → s.cfg = s'.cfg →
    ∃ t t' : State, exec (.frame w) s = .next t ∧ exec (.frame w) s' = .next t' ∧ t.res = t'.res

/-- The spec's own derivation (30_encoding section 4, "Reserved bytes"): bytes 5 to 7 of the DecryptedFrame change neither the verdict nor the flags nor the reading. -/
def Obligations.ReservedBytesAreUnread : Prop :=
  ∀ (s : State) (w w' : BitVec 64), permBijective s.cfg.perm = true →
    (∀ i : Fin 8, i.val ≤ 4 → (deobfuscate s.cfg (bytes8 w)).get i = (deobfuscate s.cfg (bytes8 w')).get i) →
    ∃ t t' : State, exec (.frame w) s = .next t ∧ exec (.frame w') s = .next t' ∧
      t.res.verdict = t'.res.verdict ∧ t.res.termOk = t'.res.termOk ∧ t.res.sumOk = t'.res.sumOk ∧
      t.res.payload = t'.res.payload ∧ t.res.readingOf = t'.res.readingOf

/-! ### Reset and the host's operations -/

/-- 70_reset_and_hazards R94: RESET in every state, with a transaction in flight or not: VERDICT = EMPTY and every other
field undefined, IN_READY = 1, the tables as they were, nothing yielded, the device not touched. -/
def Obligations.ResetEmptiesTheLatch : Prop :=
  ∀ s : State, ∃ t : State, exec .reset s = .next t ∧ t.res = .empty ∧ t.inReady = true ∧
    t.cfg = s.cfg ∧ t.adj = s.adj ∧ t.host.stream = s.host.stream ∧ t.host.reports = s.host.reports ∧
    t.keyOut = s.keyOut ∧ t.res.verdict.code = 0 ∧
    ∀ f : ResField, f ≠ .verdict → t.res.read f = .error (.undefinedResultRead f)

/-- 70_reset_and_hazards R96, for a unit built with any tables: the power-on state is the state RESET gives, compared on
everything the unit holds (KEY, PERM, CSTATE and tempEval in cfg, ADJ, the flight, RES). -/
def Obligations.PowerOnIsTheResetState : Prop :=
  State.reset = State.powerOn Config.default ∧
  ∀ c : Config,
    (State.powerOn c).res.verdict = .empty ∧ (State.powerOn c).flight = none ∧ (State.powerOn c).inReady = true ∧
    (∀ f : ResField, f ≠ .verdict → (State.powerOn c).res.read f = .error (.undefinedResultRead f)) ∧
    ∃ t : State, exec .reset (State.powerOn c) = .next t ∧ t.cfg = (State.powerOn c).cfg ∧
      t.adj = (State.powerOn c).adj ∧ t.flight = (State.powerOn c).flight ∧ t.res = (State.powerOn c).res

/-- 43_frame_transaction R74, 30_encoding R44: HANDSHAKE writes the report `00 ‖ KEY` to the device and changes nothing in
the unit. -/
def Obligations.HandshakeWritesTheKeyReport : Prop :=
  ∀ s : State, exec .handshake s = .next { s with
    host := { s.host with reports := s.host.reports ++ [0x00 :: (List.finRange 8).map s.cfg.key.get] } }

/-- 43_frame_transaction R70: YIELD takes the Reading of a READING verdict that has not been taken, and yields nothing
otherwise. That a Reading is taken once is the model's reading of 60_exceptions R90 (log entry 6). -/
def Obligations.YieldTakesTheReadingOnce : Prop :=
  ∀ s : State,
    (∀ frame p r, s.res = .reading frame p r → s.host.fresh = true →
      exec .yield s = .next { s with host := { s.host with stream := s.host.stream ++ [r], fresh := false } }) ∧
    (s.res.verdict ≠ .reading → exec .yield s = .next s) ∧
    (s.host.fresh = false → exec .yield s = .next s)

/-- 10_state R17, R18 and 60_exceptions R84: a host read of a field that the verdict and kind define answers a next state
that differs only in what the host got (20_memory R29); a read of any other field raises the fault with that field's
name, gives no value and leaves the unit as it was. The fault is never cleared, by any step, and never final: no step
ends in a fault. -/
def Obligations.HostReadFaultsExactlyOnUndefinedFields : Prop :=
  ∀ s : State,
    (∀ (f : ResField) (rest : List HostMove), s.pins.reset = false → s.pins.inValid = false →
      s.host.script = .readRes f :: rest →
      if f ∈ definedFields s.res.verdict (s.res.kind.getD .none) then
        ∃ w : BitVec 64, s.res.bits f = some w ∧
          step s = .next { s with host := { s.host with script := rest, got := .res f w } }
      else step s = .next { s with host := { s.host with
        script := rest
        got := .fault (.undefinedResultRead f)
        faults := s.host.faults ++ [.undefinedResultRead f] } }) ∧
    (∀ t : State, step s = .next t → ∃ raised : List Fault, t.host.faults = s.host.faults ++ raised) ∧
    ∀ r : Fault, step s ≠ .fault r

/-- 10_state R14, 20_memory R29: a host read of KEY_OUT gives `word64(KEY)` and changes nothing in the unit. -/
def Obligations.KeyOutIsThePackedKey : Prop :=
  ∀ (s : State) (rest : List HostMove), s.pins.reset = false → s.pins.inValid = false →
    s.host.script = .readKey :: rest →
    step s = .next { s with host := { s.host with script := rest, got := .key (word64 s.cfg.key) } }

/-- 10_state R16: RES.KIND = 3 is never produced, in any latch. -/
def Obligations.KindThreeIsNeverRead : Prop :=
  ∀ (r : Res) (w : BitVec 64), r.read .kind = .ok w → w = 0 ∨ w = 1 ∨ w = 2

/-! ### Frames: what an instruction leaves unchanged -/

/-- The frame of the transaction rows: only RES, ADJ, the flight, the offered frame's signals (log entry 7) and the taken
mark (log entry 6) may change (43_frame_transaction R69, 60_exceptions R81). The four DecryptedFrame rows leave ADJ and the signals too. -/
def Obligations.TransactionRowsFrame : Prop :=
  ∀ (s t : State) (i : Instr), exec i s = .next t →
    ((∃ w, i = .frame w) ∨ (∃ w, i = .framePlain w) →
      t.cfg = s.cfg ∧ t.pins.reset = s.pins.reset ∧ t.host.script = s.host.script ∧ t.host.stream = s.host.stream ∧
      t.host.reports = s.host.reports ∧ t.host.got = s.host.got ∧ t.host.faults = s.host.faults ∧
      (s.adj = adjust s.cfg.cstate → t.adj = s.adj)) ∧
    ((∃ p r5 r6 r7, i = .co2 p r5 r6 r7) ∨ (∃ p r5 r6 r7, i = .temp p r5 r6 r7) ∨
      (∃ op p r5 r6 r7, i = .noread op p r5 r6 r7) ∨ (∃ out, i = .badframe out) →
      t.cfg = s.cfg ∧ t.adj = s.adj ∧ t.pins = s.pins ∧ t.host.script = s.host.script ∧
      t.host.stream = s.host.stream ∧ t.host.reports = s.host.reports ∧ t.host.got = s.host.got ∧
      t.host.faults = s.host.faults)

/-- The frame of the datapath rows: they change nothing but the values of the transaction in flight, never the frame it
sampled, and ADJUST and DEOBFUSCATE the table ADJ, which they leave as it is when it is the one derived from CSTATE. -/
def Obligations.StageRowsFrame : Prop :=
  ∀ (s t : State) (i : Instr), i ∈ stageRows ++ [.deobfuscate] → exec i s = .next t →
    t.cfg = s.cfg ∧ t.pins = s.pins ∧ t.res = s.res ∧ t.host = s.host ∧
    t.flight.map Flight.raw = s.flight.map Flight.raw ∧
    (i ≠ .adjust → i ≠ .deobfuscate → t.adj = s.adj) ∧ (i = .adjust → t.flight = s.flight) ∧
    (s.adj = adjust s.cfg.cstate → t.adj = s.adj)

/-- A datapath row whose input the transaction has not evaluated evaluates nothing, and on an idle unit a row changes
nothing (60_exceptions R93: an idle unit "holds RES and changes nothing"; log entry 9). -/
def Obligations.StageRowsWithoutInput : Prop :=
  ∀ s : State, permBijective s.cfg.perm = true →
    (s.flight = none → ∀ i ∈ [Instr.permute, .xorkey, .rotate, .subtract, .sum, .termOk, .sumOk, .valid, .dispatch],
      exec i s = .next s) ∧
    (s.flight = none → exec .deobfuscate s = .next { s with adj := adjust s.cfg.cstate }) ∧
    (∀ f : Flight, s.flight = some f →
      (f.inter = none → exec .xorkey s = .next { s with flight := some { f with xored := none } }) ∧
      (f.xored = none → exec .rotate s = .next { s with flight := some { f with rotated := none } }) ∧
      (f.rotated = none → exec .subtract s = .next { s with flight := some { f with out := none } }) ∧
      (f.out = none → exec .sum s = .next { s with flight := some { f with sum := none } }) ∧
      (f.out = none → exec .termOk s = .next { s with flight := some { f with termOk := none } }) ∧
      (f.sum = none ∨ f.out = none → exec .sumOk s = .next { s with flight := some { f with sumOk := none } }) ∧
      (f.termOk = none ∨ f.sumOk = none → exec .valid s = .next { s with flight := some { f with valid := none } }) ∧
      (f.out = none → exec .dispatch s = .next { s with flight := some { f with decoded := none } }))

/-- The frame of RESET, HANDSHAKE and YIELD: RESET keeps the tables, and HANDSHAKE and YIELD change nothing in the unit
(70_reset_and_hazards R94, R95; 43_frame_transaction R70, R74). Two clauses are the model's choice: that an offered frame
stays offered across RESET (log entry 7), and that RESET clears the taken mark and nothing else of the host (log
entry 6). -/
def Obligations.HostRowsFrame : Prop :=
  ∀ s t : State,
    (exec .reset s = .next t → t.cfg = s.cfg ∧ t.adj = s.adj ∧ t.pins.frameIn = s.pins.frameIn ∧
      t.pins.inValid = s.pins.inValid ∧ t.host = { s.host with fresh := false }) ∧
    (exec .handshake s = .next t → t.cfg = s.cfg ∧ t.adj = s.adj ∧ t.pins = s.pins ∧ t.flight = s.flight ∧
      t.res = s.res ∧ t.host.script = s.host.script ∧ t.host.stream = s.host.stream ∧ t.host.fresh = s.host.fresh ∧
      t.host.got = s.host.got ∧ t.host.faults = s.host.faults) ∧
    (exec .yield s = .next t → t.cfg = s.cfg ∧ t.adj = s.adj ∧ t.pins = s.pins ∧ t.flight = s.flight ∧
      t.res = s.res ∧ t.host.script = s.host.script ∧ t.host.reports = s.host.reports ∧ t.host.got = s.host.got ∧
      t.host.faults = s.host.faults)

/-! ### The step and the whole machine -/

/-- A step runs the instruction presented: RESET when its signal is asserted (70_reset_and_hazards R94, R103), else
FRAME of FRAME_IN when a frame is offered (10_state R14), else the instruction of the host's next script line. The order of the three is the model's (log entry 5). -/
def Obligations.StepRunsThePresentedInstruction : Prop :=
  ∀ s : State,
    (s.pins.reset = true → step s = exec .reset s) ∧
    (s.pins.reset = false → s.pins.inValid = true → step s = exec (.frame s.pins.frameIn) s) ∧
    (s.pins.reset = false → s.pins.inValid = false → ∀ (l : Line) (rest : List HostMove) (i : Instr),
      s.host.script = .line l :: rest → l.port ≠ .out → decode l = .ok i →
      step s = exec i { s with host := { s.host with script := rest } })

/-- 60_exceptions R93: with nothing presented and nothing in flight a step changes nothing; a transaction in flight
completes with the verdict of the frame it sampled (43_frame_transaction R69; log entries 6 and 13). -/
def Obligations.QuietStepHoldsOrCompletes : Prop :=
  ∀ s : State, s.pins.reset = false → s.pins.inValid = false → s.host.script = [] →
    (s.flight = none → step s = .next s) ∧
    (∀ f : Flight, s.flight = some f → permBijective s.cfg.perm = true →
      step s = .next { s with
        adj := adjust s.cfg.cstate
        flight := none
        res := resultOf s.cfg.tempEval (deobfuscate s.cfg f.raw)
        host := { s.host with fresh := true } })

/-- 20_memory R28: a host line at a frame port with other than 8 bytes is refused; a frame cannot be offered in part. -/
def Obligations.PartialFrameCannotBeOffered : Prop :=
  ∀ (s : State) (l : Line) (rest : List HostMove), s.pins.reset = false → s.pins.inValid = false →
    s.host.script = .line l :: rest → (l.port = .frameIn ∨ l.port = .plain) → l.bytes.length ≠ 8 →
    step s = .refused (.badOffer (.wrongLength l.port l.bytes.length))

/-- The start state is sound for every accepted configuration, the default one among them: an accepted configuration
with its ADJ, nothing in flight, an empty latch. That the stream starts empty is the model's choice (log entry 4). -/
def Obligations.ResetStateIsSound : Prop :=
  State.reset.sound ∧ State.reset.res = .empty ∧ State.reset.host.stream = [] ∧
  ∀ c : Config, permBijective c.perm = true →
    (State.powerOn c).sound ∧ (State.powerOn c).res = .empty ∧ (State.powerOn c).host.stream = []

/-- Every step keeps the machine sound: the tables stay as configured and ADJ the one derived from CSTATE (10_state
R13), IN_READY is 1 between steps (70_reset_and_hazards R100), and the latch holds exactly what the rules give the
frame it shows (10_state R17, 43_frame_transaction R69, R71). -/
def Obligations.StepKeepsTheMachineSound : Prop :=
  ∀ s t : State, s.sound → step s = .next t → t.sound

/-- Every Reading a step adds to the stream is the one the latch holds, and the DecryptedFrame in the latch passes
validation and decodes to it: no Reading is ever yielded from a frame that fails validation or carries an unrecognised
opcode (43_frame_transaction R71). -/
def Obligations.StepKeepsTheStreamGenuine : Prop :=
  ∀ s t : State, s.sound → step s = .next t →
    ∃ added : List Reading, t.host.stream = s.host.stream ++ added ∧
      ∀ r ∈ added, s.res.genuine s.cfg.tempEval r

/-- The spec's own derivation (43_frame_transaction, "Validity invariant"), for every state: a READING verdict a step writes comes with a valid frame of a recognised
opcode, and its Reading is that frame's. -/
def Obligations.ReadingsComeFromValidRecognisedFrames : Prop :=
  ∀ s t : State, step s = .next t → t.res.verdict = .reading →
    t.res = s.res ∨
    ∃ out : Lanes Byte, t.res.frame = some (word64 out) ∧ out.l4 = 0x0D ∧ out.l0 + out.l1 + out.l2 = out.l3 ∧
      (out.l0 = 0x50 ∧ t.res.readingOf = some (.co2 (payload out)) ∨
        out.l0 = 0x42 ∧ t.res.readingOf = some (.temperature (tempC s.cfg.tempEval (payload out))))

/-- 43_frame_transaction R70, R73: a step adds to the stream at its end, at most one Reading, and only the Reading that RES
holds; nothing yielded is ever taken back. -/
def Obligations.StreamGrowsOnlyByTheLatchedReading : Prop :=
  ∀ s t : State, step s = .next t →
    t.host.stream = s.host.stream ∨
    ∃ r : Reading, s.res.readingOf = some r ∧ s.host.fresh = true ∧ t.host.stream = s.host.stream ++ [r] ∧
      t.host.fresh = false

/-- 43_frame_transaction R72: the skip loop returns exactly the Reading of the first frame that yields. When it has
returned, every result before that frame was one to go past; and when the first frame that yields comes before any fatal
error, under an accepted configuration, it returns that frame's Reading with the results after it unused. -/
def Obligations.SkipLoopReturnsTheFirstReading : Prop :=
  ∀ (isFatal : Nat → Bool) (results rest : List AdapterResult) (s : State) (r : Reading),
    (∀ t : State, nextReading isFatal results s = .reading r t rest →
      ∃ (skipped : List AdapterResult) (w : BitVec 64), results = skipped ++ .frame w :: rest ∧
        skippable isFatal s.cfg skipped ∧ t.res = resultOf s.cfg.tempEval (deobfuscate s.cfg (bytes8 w)) ∧
        t.res.readingOf = some r) ∧
    (∀ (skipped : List AdapterResult) (w : BitVec 64), permBijective s.cfg.perm = true →
      results = skipped ++ .frame w :: rest → skippable isFatal s.cfg skipped →
      (resultOf s.cfg.tempEval (deobfuscate s.cfg (bytes8 w))).readingOf = some r →
      ∃ t : State, nextReading isFatal results s = .reading r t rest ∧
        t.res = resultOf s.cfg.tempEval (deobfuscate s.cfg (bytes8 w)))

/-- 60_exceptions R89, 43_frame_transaction R72: the skip loop ends the stream exactly on the first read error the host
classes as fatal, naming `read`, when no frame before it yielded. -/
def Obligations.SkipLoopEndsOnlyOnAFatalReadError : Prop :=
  ∀ (isFatal : Nat → Bool) (results : List AdapterResult) (s : State),
    (∀ (t : State) (failed : HostStep), nextReading isFatal results s = .fatal failed t →
      failed = .read ∧ ∃ (skipped rest : List AdapterResult) (e : Nat),
        results = skipped ++ .ioError e :: rest ∧ isFatal e = true ∧ skippable isFatal s.cfg skipped) ∧
    (∀ (skipped rest : List AdapterResult) (e : Nat), permBijective s.cfg.perm = true →
      results = skipped ++ .ioError e :: rest → isFatal e = true → skippable isFatal s.cfg skipped →
      ∃ t : State, nextReading isFatal results s = .fatal .read t)

/-! ### Beside the order of the files -/

/-- 42_frame_decoder R66: `temp_c` in both modes, on every payload, as roundings to nearest of exact values: in binary32
the quotient, the constant and the difference are each rounded in binary32; in the other mode in binary64, and the result
once more to binary32. -/
def Obligations.TemperatureIsTheRoundedExpression : Prop :=
  ∀ v : BitVec 16,
    (∃ quotient offset result : Nat,
      fmt32.nearest ((v.toNat : ℚ) / 16) quotient ∧ fmt32.nearest (27315 / 100) offset ∧
      fmt32.nearest ((fmt32.value quotient).toRat - (fmt32.value offset).toRat) result ∧
      tempC .binary32 v = BitVec.ofNat 32 result) ∧
    (∃ quotient offset difference result : Nat,
      fmt64.nearest ((v.toNat : ℚ) / 16) quotient ∧ fmt64.nearest (27315 / 100) offset ∧
      fmt64.nearest ((fmt64.value quotient).toRat - (fmt64.value offset).toRat) difference ∧
      fmt32.nearest (fmt64.value difference).toRat result ∧
      tempC .binary64ThenRound v = BitVec.ofNat 32 result)

/-- 60_exceptions R89: the policy's table, row by row, as what the host's session does: whether it goes on or ends, and
the step its diagnostic names. The unit keeps its latch on every row. That a failed `open` or `write_feature_report`
carries an error value which `isFatal` classes is the model's reading (log entry 15). -/
def Obligations.HostErrorPolicyFollowsTheTable : Prop :=
  ∀ (isFatal : Nat → Bool) (s : State) (rest : List AdapterResult) (written : CallResult) (e : Nat),
    nextReading isFatal (.timeout :: rest) s = nextReading isFatal rest s ∧
    (isFatal e = false → nextReading isFatal (.ioError e :: rest) s = nextReading isFatal rest s) ∧
    (isFatal e = true → nextReading isFatal (.ioError e :: rest) s = .fatal .read s) ∧
    startSession isFatal (.failed e) written s = .fatal .openDevice s ∧
    (isFatal e = true → ∃ t : State, startSession isFatal .done (.failed e) s = .fatal .handshake t ∧
      t.res = s.res ∧ t.flight = s.flight ∧ t.cfg = s.cfg) ∧
    (isFatal e = false → ∃ t : State, startSession isFatal .done (.failed e) s = .ready t ∧
      t.res = s.res ∧ t.flight = s.flight ∧ t.cfg = s.cfg)

/-- 70_reset_and_hazards R95: reset writes none of KEY, PERM, CSTATE and ADJ, and a unit built with other tables starts in
the reset state, with those tables. -/
def Obligations.OtherTablesStartInTheResetState : Prop :=
  (∀ s t : State, exec .reset s = .next t →
    t.cfg.key = s.cfg.key ∧ t.cfg.perm = s.cfg.perm ∧ t.cfg.cstate = s.cfg.cstate ∧ t.adj = s.adj) ∧
  (∀ c : Config, (machineOf c).reset = State.powerOn c ∧ (State.powerOn c).cfg = c ∧
    (State.powerOn c).adj = adjust c.cstate ∧ (State.powerOn c).res = .empty ∧ (State.powerOn c).inReady = true) ∧
  machineOf Config.default = core

/-- 43_frame_transaction R71 over runs: when the stream is empty in a sound state, every Reading it holds later was shown
by the latch of some state in between, whose frame passes validation and decodes to it. -/
def Obligations.StreamIsGenuineAlongEveryRun : Prop :=
  ∀ s t : State, s.sound → s.host.stream = [] → s.reaches t →
    ∀ r ∈ t.host.stream, ∃ u : State, s.reaches u ∧ u.reaches t ∧ u.res.genuine u.cfg.tempEval r
end

