-- ==== Sys2Proof/Laws/State.lean ====
section
/-! SUPPORT. One lemma per field per update of State. -/

namespace Sys2Proof.Machine

@[simp] theorem State.setRes_cfg (s : State) (r : Res) : (s.setRes r).cfg = s.cfg := rfl
@[simp] theorem State.setRes_adj (s : State) (r : Res) : (s.setRes r).adj = s.adj := rfl
@[simp] theorem State.setRes_pins (s : State) (r : Res) : (s.setRes r).pins = s.pins := rfl
@[simp] theorem State.setRes_flight (s : State) (r : Res) : (s.setRes r).flight = s.flight := rfl
@[simp] theorem State.setRes_res (s : State) (r : Res) : (s.setRes r).res = r := rfl
@[simp] theorem State.setRes_host (s : State) (r : Res) : (s.setRes r).host = s.host := rfl

@[simp] theorem State.setAdj_cfg (s : State) (a : Lanes Byte) : (s.setAdj a).cfg = s.cfg := rfl
@[simp] theorem State.setAdj_adj (s : State) (a : Lanes Byte) : (s.setAdj a).adj = a := rfl
@[simp] theorem State.setAdj_pins (s : State) (a : Lanes Byte) : (s.setAdj a).pins = s.pins := rfl
@[simp] theorem State.setAdj_flight (s : State) (a : Lanes Byte) : (s.setAdj a).flight = s.flight := rfl
@[simp] theorem State.setAdj_res (s : State) (a : Lanes Byte) : (s.setAdj a).res = s.res := rfl
@[simp] theorem State.setAdj_host (s : State) (a : Lanes Byte) : (s.setAdj a).host = s.host := rfl

@[simp] theorem State.setPins_cfg (s : State) (p : Pins) : (s.setPins p).cfg = s.cfg := rfl
@[simp] theorem State.setPins_adj (s : State) (p : Pins) : (s.setPins p).adj = s.adj := rfl
@[simp] theorem State.setPins_pins (s : State) (p : Pins) : (s.setPins p).pins = p := rfl
@[simp] theorem State.setPins_flight (s : State) (p : Pins) : (s.setPins p).flight = s.flight := rfl
@[simp] theorem State.setPins_res (s : State) (p : Pins) : (s.setPins p).res = s.res := rfl
@[simp] theorem State.setPins_host (s : State) (p : Pins) : (s.setPins p).host = s.host := rfl

@[simp] theorem State.setFlight_cfg (s : State) (f : Option Flight) : (s.setFlight f).cfg = s.cfg := rfl
@[simp] theorem State.setFlight_adj (s : State) (f : Option Flight) : (s.setFlight f).adj = s.adj := rfl
@[simp] theorem State.setFlight_pins (s : State) (f : Option Flight) : (s.setFlight f).pins = s.pins := rfl
@[simp] theorem State.setFlight_flight (s : State) (f : Option Flight) : (s.setFlight f).flight = f := rfl
@[simp] theorem State.setFlight_res (s : State) (f : Option Flight) : (s.setFlight f).res = s.res := rfl
@[simp] theorem State.setFlight_host (s : State) (f : Option Flight) : (s.setFlight f).host = s.host := rfl

@[simp] theorem State.setHost_cfg (s : State) (h : HostSide) : (s.setHost h).cfg = s.cfg := rfl
@[simp] theorem State.setHost_adj (s : State) (h : HostSide) : (s.setHost h).adj = s.adj := rfl
@[simp] theorem State.setHost_pins (s : State) (h : HostSide) : (s.setHost h).pins = s.pins := rfl
@[simp] theorem State.setHost_flight (s : State) (h : HostSide) : (s.setHost h).flight = s.flight := rfl
@[simp] theorem State.setHost_res (s : State) (h : HostSide) : (s.setHost h).res = s.res := rfl
@[simp] theorem State.setHost_host (s : State) (h : HostSide) : (s.setHost h).host = h := rfl

@[simp] theorem State.powerOn_cfg (c : Config) : (State.powerOn c).cfg = c := rfl
@[simp] theorem State.powerOn_adj (c : Config) : (State.powerOn c).adj = adjust c.cstate := rfl
@[simp] theorem State.powerOn_flight (c : Config) : (State.powerOn c).flight = none := rfl
@[simp] theorem State.powerOn_res (c : Config) : (State.powerOn c).res = .empty := rfl

end Sys2Proof.Machine
end

