-- ==== Sys2Proof/Laws/Ops.lean ====
section
/-! SUPPORT. What the shared operations do, once each: packing, the validator, the stages of a transaction, the verdict
branches, the transaction, and the guard. -/

namespace Sys2Proof.Machine

/-- Packing loses nothing (20_memory R24). -/
@[simp] theorem bytes8_word64 (a : Lanes Byte) : bytes8 (word64 a) = a := by
  obtain ⟨a0, a1, a2, a3, a4, a5, a6, a7⟩ := a
  simp only [bytes8, word64, Lanes.mk.injEq]
  refine ⟨?_, ?_, ?_, ?_, ?_, ?_, ?_, ?_⟩ <;>
    (apply BitVec.eq_of_getLsbD_eq; intro i hi; simp; interval_cases i <;> simp)

/-- Unpacking loses nothing (40_deobfuscator R46). -/
@[simp] theorem word64_bytes8 (w : BitVec 64) : word64 (bytes8 w) = w := by
  apply BitVec.eq_of_getLsbD_eq
  intro i hi
  simp only [bytes8, word64]
  interval_cases i <;> simp

/-- The checksum byte is the 8-bit sum of the first three bytes (41_checksum R57). -/
theorem checksum_eq (out : Lanes Byte) : checksum out = out.l0 + out.l1 + out.l2 := by
  apply BitVec.eq_of_toNat_eq
  have h255 : (255 : BitVec 16).toNat = 2 ^ 8 - 1 := rfl
  simp only [checksum, sum16, BitVec.toNat_setWidth, BitVec.toNat_and, BitVec.toNat_add, h255,
    Nat.and_two_pow_sub_one_eq_mod]
  omega

/-- The payload's high byte is `OUT[1]` (30_encoding R38). -/
@[simp] theorem payloadHi_payload (out : Lanes Byte) : payloadHi (payload out) = out.l1 := by
  apply BitVec.eq_of_getLsbD_eq; intro i hi
  simp only [payloadHi, payload]
  interval_cases i <;> simp

/-- The payload's low byte is `OUT[2]` (30_encoding R38). -/
@[simp] theorem payloadLo_payload (out : Lanes Byte) : payloadLo (payload out) = out.l2 := by
  apply BitVec.eq_of_getLsbD_eq; intro i hi
  simp only [payloadLo, payload]
  interval_cases i <;> simp

/-- Validity as its two conditions (41_checksum R60). -/
theorem valid_iff (out : Lanes Byte) :
    valid out = true ↔ out.l4 = terminator ∧ out.l0 + out.l1 + out.l2 = out.l3 := by
  simp [valid, validFlag, termOk, sumOk, checksum_eq]

/-- A valid frame is determined by its opcode, payload and reserved bytes (30_encoding R40). -/
theorem validFrame_of_valid (out : Lanes Byte) (h : valid out = true) :
    validFrame (opcode out) (payload out) out.l5 out.l6 out.l7 = out := by
  obtain ⟨h4, h3⟩ := (valid_iff out).1 h
  simp only [validFrame, payloadHi_payload, payloadLo_payload, opcode]
  rw [h3, ← h4]

/-- Latching writes RES. -/
@[simp] theorem latch_res (s : State) (r : Res) : (s.latch r).res = r := rfl

/-- Latching ends the transaction. -/
@[simp] theorem latch_flight (s : State) (r : Res) : (s.latch r).flight = none := rfl

/-- Latching keeps the configuration. -/
@[simp] theorem latch_cfg (s : State) (r : Res) : (s.latch r).cfg = s.cfg := rfl

/-- Latching keeps the table ADJ. -/
@[simp] theorem latch_adj (s : State) (r : Res) : (s.latch r).adj = s.adj := rfl

/-- Latching keeps the input signals. -/
@[simp] theorem latch_pins (s : State) (r : Res) : (s.latch r).pins = s.pins := rfl

/-- Latching touches no field of the host but the taken mark. -/
@[simp] theorem latch_host (s : State) (r : Res) : (s.latch r).host = { s.host with fresh := true } := rfl

/-- Evaluating a stage on a transaction in flight. -/
@[simp] theorem onFlight_some (s : State) (g : Flight → Flight) (f : Flight) (h : s.flight = some f) :
    s.onFlight g = s.setFlight (some (g f)) := by
  simp [State.onFlight, h]

/-- An idle unit evaluates nothing (60_exceptions R93). -/
@[simp] theorem onFlight_none (s : State) (g : Flight → Flight) (h : s.flight = none) : s.onFlight g = s := by
  cases s; simp_all [State.onFlight, State.setFlight]

/-- A transaction after all its stages: every value is the rule's function of the sampled frame (40_deobfuscator R53,
41_checksum R57 to R60, 42_frame_decoder R63). -/
def evaluatedFlight (cfg : Config) (raw : Lanes Byte) : Flight :=
  let inter := permute cfg.perm raw
  let xored := xorKey cfg.key inter
  let rotated := rotate xored
  let out := subtract (adjust cfg.cstate) rotated
  ⟨raw, some inter, some xored, some rotated, some out, some (checksum out), some (termOk out),
    some (sumOk (checksum out) out), some (valid out), some (decodeReading cfg.tempEval out)⟩

/-- The stages evaluate a transaction completely, whatever was evaluated before, and write ADJ. -/
theorem runStages_some (s : State) (f : Flight) (h : s.flight = some f) :
    s.runStages = (s.setAdj (adjust s.cfg.cstate)).setFlight (some (evaluatedFlight s.cfg f.raw)) := by
  cases s with
  | mk cfg adj pins flight res host =>
    subst h
    rfl

/-- The verdict branches on an evaluated transaction latch the result of its DecryptedFrame. -/
theorem finish_evaluated (s : State) (raw : Lanes Byte) (h : s.flight = some (evaluatedFlight s.cfg raw)) :
    s.finish = s.latch (resultOf s.cfg.tempEval (deobfuscate s.cfg raw)) := by
  have hout : subtract (adjust s.cfg.cstate) (rotate (xorKey s.cfg.key (permute s.cfg.perm raw))) =
      deobfuscate s.cfg raw := rfl
  simp only [State.finish, h, evaluatedFlight, hout, resultOf]
  generalize deobfuscate s.cfg raw = out
  cases hv : valid out with
  | false => simp [State.pathBadframe]
  | true =>
    have hf := validFrame_of_valid out hv
    simp only [decodeReading]
    by_cases h5 : opcode out = opCo2
    · rw [h5] at hf; simp [h5, State.pathCo2, hf]
    · by_cases h4 : opcode out = opTemp
      · rw [h4] at hf
        have : opTemp ≠ opCo2 := by decide
        simp [h4, this, State.pathTemp, hf]
      · simp [h5, h4, State.pathNoread, hf]

/-- Completing a transaction in flight changes only RES, ADJ, the flight and the taken mark. -/
theorem complete_cases (s : State) :
    s.complete = s ∨ ∃ f, s.flight = some f ∧
      s.complete = (s.setAdj (adjust s.cfg.cstate)).latch (resultOf s.cfg.tempEval (deobfuscate s.cfg f.raw)) := by
  cases h : s.flight with
  | none => left; simp [State.complete, h]
  | some f =>
    right
    refine ⟨f, rfl, ?_⟩
    simp only [State.complete, h]
    rw [runStages_some s f h, finish_evaluated _ f.raw (by simp)]
    rfl

/-- The transaction: what it leaves, in every state (43_frame_transaction R69). -/
theorem transact_eq (s : State) (w : BitVec 64) :
    s.transact w =
      ((s.setAdj (adjust s.cfg.cstate)).setPins { s.pins with frameIn := w, inValid := false }).latch
        (resultOf s.cfg.tempEval (deobfuscate s.cfg (bytes8 w))) := by
  have key : ∀ t : State, (t.accept w).runStages.finish =
      ((t.setAdj (adjust t.cfg.cstate)).setPins { t.pins with frameIn := w, inValid := false }).latch
        (resultOf t.cfg.tempEval (deobfuscate t.cfg (bytes8 w))) := by
    intro t
    rw [runStages_some _ (Flight.start (bytes8 w)) (by simp [State.accept]),
      finish_evaluated _ (bytes8 w) (by simp [State.accept, Flight.start])]
    rfl
  simp only [State.transact]
  rw [key]
  rcases complete_cases s with h | ⟨f, -, h⟩
  · rw [h]
  · rw [h]; rfl

/-- The guard answers a next state exactly for an accepted configuration (60_exceptions R83). -/
theorem guarded_next_iff (s t u : State) :
    s.guarded t = .next u ↔ permBijective s.cfg.perm = true ∧ t = u := by
  unfold State.guarded
  split <;> simp_all

/-- The guard passes for an accepted configuration. -/
@[simp] theorem guarded_of_bijective (s t : State) (h : permBijective s.cfg.perm = true) : s.guarded t = .next t := by
  simp [State.guarded, h]

/-- The guard never faults. -/
@[simp] theorem guarded_ne_fault (s t : State) (r : Fault) : s.guarded t ≠ .fault r := by
  unfold State.guarded
  split <;> simp

/-- Raising a fault changes what the host got and adds the fault, and nothing else. -/
theorem raise_eq (s : State) (r : Fault) :
    s.raise r = { s with host := { s.host with got := .fault r, faults := s.host.faults ++ [r] } } := rfl

/-- Sending the report adds it to the reports written, and changes nothing else. -/
theorem sendReport_eq (s : State) :
    s.sendReport = { s with host := { s.host with reports := s.host.reports ++ [s.featureReport] } } := rfl

end Sys2Proof.Machine
end

