-- ==== Sys2Proof/Laws/Decode.lean ====
section
/-! SUPPORT. What the decoder answers, once: the inversion of `decode` and the classes of `classify`. -/

namespace Sys2Proof

open Sys2Proof.Machine

/-- Eight bytes in a list are the list of their array. -/
theorem lanesOf_eq_some {bytes : List Byte} {a : Lanes Byte} (h : lanesOf bytes = some a) : bytes = a.toList := by
  unfold lanesOf at h
  split at h
  · cases h; rfl
  · cases h

/-- The list of an array is that array. -/
@[simp] theorem lanesOf_toList (a : Lanes Byte) : lanesOf a.toList = some a := rfl

/-- Everything the decoder can answer with: each port's instructions and the bytes they come from. -/
theorem decode_cases {l : Line} {i : Instr} (h : decode l = .ok i) :
    (∃ raw : Lanes Byte, l = ⟨.frameIn, raw.toList⟩ ∧ i = .frame (word64 raw)) ∨
    (∃ plain : Lanes Byte, l = ⟨.plain, plain.toList⟩ ∧ i = .framePlain (word64 plain)) ∨
    (∃ out : Lanes Byte, l = ⟨.out, out.toList⟩ ∧ i = classify out) ∨
    (l = ⟨.resetLine, [0x01]⟩ ∧ i = .reset) ∨
    (l = ⟨.report, [0x00]⟩ ∧ i = .handshake) ∨
    (l = ⟨.verdict, [0x01]⟩ ∧ i = .yield) := by
  obtain ⟨port, bytes⟩ := l
  cases port <;> simp only [decode] at h
  case frameIn =>
    split at h
    · rename_i raw hr; cases h; exact .inl ⟨raw, by rw [lanesOf_eq_some hr], rfl⟩
    · cases h
  case plain =>
    split at h
    · rename_i raw hr; cases h; exact .inr (.inl ⟨raw, by rw [lanesOf_eq_some hr], rfl⟩)
    · cases h
  case out =>
    split at h
    · rename_i raw hr; cases h; exact .inr (.inr (.inl ⟨raw, by rw [lanesOf_eq_some hr], rfl⟩))
    · cases h
  case resetLine =>
    split at h
    · split at h
      · rename_i hl; cases h; subst hl; simp
      · cases h
    · cases h
  case report =>
    split at h
    · split at h
      · rename_i hl; cases h; subst hl; simp
      · cases h
    · cases h
  case verdict =>
    split at h
    · split at h
      · rename_i hl; cases h; subst hl; simp
      · cases h
    · cases h

/-- The four classes of a DecryptedFrame (30_encoding R39, R42). -/
theorem classify_cases (out : Lanes Byte) :
    (valid out = false ∧ classify out = .badframe out) ∨
    (valid out = true ∧ opcode out = opCo2 ∧ classify out = .co2 (payload out) out.l5 out.l6 out.l7) ∨
    (valid out = true ∧ opcode out = opTemp ∧ classify out = .temp (payload out) out.l5 out.l6 out.l7) ∨
    (valid out = true ∧ unrecognized (opcode out) = true ∧
      classify out = .noread (opcode out) (payload out) out.l5 out.l6 out.l7) := by
  unfold classify
  cases hv : valid out with
  | false => simp
  | true =>
    by_cases h5 : opcode out = opCo2
    · simp [h5]
    · by_cases h4 : opcode out = opTemp
      · have : opTemp ≠ opCo2 := by decide
        simp [h4, this]
      · simp [h5, h4, unrecognized]

end Sys2Proof
end

