-- ==== Sys2Proof/Laws/Float.lean ====
section
/-! SUPPORT. The rounding operations, once: rounding to nearest, and exactness of a dyadic value that fits the format. -/

namespace Sys2Proof.Machine

/-- An exact quotient is its own rounding. -/
theorem roundDiv_mul (m d : Nat) (hd : 0 < d) : roundDiv (m * d) d = m := by
  simp only [roundDiv, Nat.mul_div_cancel m hd, Nat.mul_mod_left]
  rw [if_neg (by omega)]

/-- The rounded quotient is within half of the quotient, and even when the quotient lies half way. -/
theorem roundDiv_nearest (n d : Nat) (hd : 0 < d) :
    2 * n ≤ (2 * roundDiv n d + 1) * d ∧ (2 * roundDiv n d) * d ≤ 2 * n + d ∧
    ((2 * n = (2 * roundDiv n d + 1) * d ∨ (2 * roundDiv n d) * d = 2 * n + d) → roundDiv n d % 2 = 0) := by
  have hdiv : d * (n / d) + n % d = n := Nat.div_add_mod n d
  have hmod : n % d < d := Nat.mod_lt n hd
  simp only [roundDiv]
  generalize n / d = m at *
  generalize n % d = r at *
  subst hdiv
  split
  · have hr : d ≤ 2 * r := by omega
    refine ⟨by nlinarith, by nlinarith, ?_⟩
    rintro (h | h)
    · nlinarith
    · have : 2 * r = d := by nlinarith
      omega
  · have hr : 2 * r ≤ d := by omega
    refine ⟨by nlinarith, by nlinarith, ?_⟩
    rintro (h | h)
    · have : 2 * r = d := by nlinarith
      omega
    · nlinarith

/-- The leading exponent of `n / 2 ^ k`. -/
theorem leadExp_pow (n k : Nat) (hn : n ≠ 0) : leadExp n (2 ^ k) = (Nat.log2 n : Int) - k := by
  have hle : 2 ^ Nat.log2 n ≤ n := Nat.log2_self_le hn
  have hk : Nat.log2 (2 ^ k) = k := Nat.log2_two_pow
  have hp : powLe ((Nat.log2 n : Int) - k) n (2 ^ k) = true := by
    simp only [powLe, decide_eq_true_eq]
    rcases le_total k (Nat.log2 n) with h | h
    · have h1 : ((Nat.log2 n : Int) - k).toNat = Nat.log2 n - k := by omega
      have h2 : (-((Nat.log2 n : Int) - k)).toNat = 0 := by omega
      rw [h1, h2, ← pow_add, Nat.add_sub_cancel' h]
      simpa using hle
    · have h1 : ((Nat.log2 n : Int) - k).toNat = 0 := by omega
      have h2 : (-((Nat.log2 n : Int) - k)).toNat = k - Nat.log2 n := by omega
      rw [h1, h2]
      calc 2 ^ k * 2 ^ 0 = 2 ^ Nat.log2 n * 2 ^ (k - Nat.log2 n) := by
            rw [pow_zero, mul_one, ← pow_add, Nat.add_sub_cancel' h]
        _ ≤ n * 2 ^ (k - Nat.log2 n) := Nat.mul_le_mul_right _ hle
  simp [leadExp, hk, hp]

/-- The magnitude of a dyadic `n₀ · 2^j / 2^k` whose odd part fits the format and whose unit is a negative power not
below the subnormal unit: its significand is `n₀` shifted up to full width, exactly. -/
theorem roundMag_exact (F : Fmt) (n₀ j k : Nat) (h0 : n₀ ≠ 0) (hp : 0 < F.prec) (hfit : Nat.log2 n₀ ≤ F.prec - 1)
    (hneg : Nat.log2 n₀ + j ≤ k + (F.prec - 1)) (hsub : k + (F.prec - 1) ≤ Nat.log2 n₀ + j + F.qneg)
    (hinf : (F.qneg - (k + (F.prec - 1) - (Nat.log2 n₀ + j))) * 2 ^ (F.prec - 1) + n₀ * 2 ^ (F.prec - 1 - Nat.log2 n₀)
      ≤ F.inf) :
    F.roundMag (n₀ * 2 ^ j) (2 ^ k) =
      (F.qneg - (k + (F.prec - 1) - (Nat.log2 n₀ + j))) * 2 ^ (F.prec - 1) +
        n₀ * 2 ^ (F.prec - 1 - Nat.log2 n₀) := by
  have hn : n₀ * 2 ^ j ≠ 0 := by positivity
  have hlog : Nat.log2 (n₀ * 2 ^ j) = Nat.log2 n₀ + j := by
    rw [Nat.log2_eq_iff hn]
    have h1 := Nat.log2_self_le h0
    have h2 := Nat.lt_log2_self (n := n₀)
    constructor
    · rw [pow_add]; exact Nat.mul_le_mul_right _ h1
    · rw [show Nat.log2 n₀ + j + 1 = (Nat.log2 n₀ + 1) + j by omega, pow_add]
      exact Nat.mul_lt_mul_of_pos_right h2 (by positivity)
  set u := k + (F.prec - 1) - (Nat.log2 n₀ + j) with hu
  have hq : F.unitExp (n₀ * 2 ^ j) (2 ^ k) = -(u : Int) := by
    simp only [Fmt.unitExp, leadExp_pow _ k hn, hlog]
    omega
  have hz : (- -(u : Int)).toNat = u := by omega
  have hw : (-(u : Int)).toNat = 0 := by omega
  have hsum : ((-(u : Int)) + F.qneg).toNat = F.qneg - u := by omega
  have hdiv : n₀ * 2 ^ j * 2 ^ u = n₀ * 2 ^ (F.prec - 1 - Nat.log2 n₀) * 2 ^ k := by
    rw [mul_assoc, mul_assoc, ← pow_add, ← pow_add]
    congr 2; omega
  simp only [Fmt.roundMag, hn, if_false, hq, hz, hw, hsum, pow_zero, mul_one]
  rw [hdiv, roundDiv_mul _ _ (by positivity)]
  exact min_eq_left hinf

/-- The exact value of a normal bit pattern with a negative unit exponent: exponent field `e`, significand `m`. -/
theorem value_normal (F : Fmt) (e m : Nat) (hm : 2 ^ (F.prec - 1) ≤ m) (hm' : m < 2 * 2 ^ (F.prec - 1))
    (he : e ≤ F.qneg) (hs : e * 2 ^ (F.prec - 1) + m < F.signBit) :
    F.value (e * 2 ^ (F.prec - 1) + m) = ⟨m, 2 ^ (F.qneg - e)⟩ := by
  have hpos : 0 < 2 ^ (F.prec - 1) := by positivity
  obtain ⟨c, rfl⟩ := Nat.exists_eq_add_of_le hm
  have hc : c < 2 ^ (F.prec - 1) := by omega
  have hd : (e * 2 ^ (F.prec - 1) + (2 ^ (F.prec - 1) + c)) / 2 ^ (F.prec - 1) = e + 1 := by
    rw [show e * 2 ^ (F.prec - 1) + (2 ^ (F.prec - 1) + c) = c + (e + 1) * 2 ^ (F.prec - 1) by ring,
      Nat.add_mul_div_right _ _ hpos, Nat.div_eq_of_lt hc, zero_add]
  have hr : (e * 2 ^ (F.prec - 1) + (2 ^ (F.prec - 1) + c)) % 2 ^ (F.prec - 1) = c := by
    rw [show e * 2 ^ (F.prec - 1) + (2 ^ (F.prec - 1) + c) = c + (e + 1) * 2 ^ (F.prec - 1) by ring,
      Nat.add_mul_mod_self_right, Nat.mod_eq_of_lt hc]
  have hq : ((max (e + 1) 1 : Nat) : Int) - 1 - (F.qneg : Int) = -((F.qneg - e : Nat) : Int) := by
    omega
  simp only [Fmt.value, Nat.mod_eq_of_lt hs, hd, hr, hs, if_true, Nat.add_eq_zero_iff, one_ne_zero, and_false,
    if_false, hq]
  have h1 : (-((F.qneg - e : Nat) : Int)).toNat = 0 := by omega
  simp [h1, add_comm]

end Sys2Proof.Machine
end

