-- ==== Sys2Proof/Laws/PerInstr.lean ====
section
/-! SUPPORT. A statement about every instruction as syntax, one lemma per constructor. -/

namespace Sys2Proof.Laws.WordLength

/-- An instruction's word has the number of bytes its port takes (30_encoding R36, R37, R43). -/
def Statement (i : Instr) : Prop := ∀ l : Line, encode i = some l → l.bytes.length = l.port.length

theorem co2 (p : BitVec 16) (r5 r6 r7 : Byte) : Statement (.co2 p r5 r6 r7) := by rintro l ⟨⟩; rfl
theorem temp (p : BitVec 16) (r5 r6 r7 : Byte) : Statement (.temp p r5 r6 r7) := by rintro l ⟨⟩; rfl
theorem noread (op : Byte) (p : BitVec 16) (r5 r6 r7 : Byte) : Statement (.noread op p r5 r6 r7) := by
  rintro l ⟨⟩; rfl
theorem badframe (out : Lanes Byte) : Statement (.badframe out) := by rintro l ⟨⟩; rfl
theorem frame (w : BitVec 64) : Statement (.frame w) := by rintro l ⟨⟩; rfl
theorem framePlain (w : BitVec 64) : Statement (.framePlain w) := by rintro l ⟨⟩; rfl
theorem reset : Statement .reset := by rintro l ⟨⟩; rfl
theorem handshake : Statement .handshake := by rintro l ⟨⟩; rfl
theorem yield : Statement .yield := by rintro l ⟨⟩; rfl
theorem permute : Statement .permute := by rintro l ⟨⟩
theorem xorkey : Statement .xorkey := by rintro l ⟨⟩
theorem rotate : Statement .rotate := by rintro l ⟨⟩
theorem adjust : Statement .adjust := by rintro l ⟨⟩
theorem subtract : Statement .subtract := by rintro l ⟨⟩
theorem deobfuscate : Statement .deobfuscate := by rintro l ⟨⟩
theorem sum : Statement .sum := by rintro l ⟨⟩
theorem termOk : Statement .termOk := by rintro l ⟨⟩
theorem sumOk : Statement .sumOk := by rintro l ⟨⟩
theorem valid : Statement .valid := by rintro l ⟨⟩
theorem dispatch : Statement .dispatch := by rintro l ⟨⟩

end Sys2Proof.Laws.WordLength
end

