-- ==== Sys2Proof/Laws/Rounding.lean ====
section
/-! SUPPORT. The rounding in the rationals: the binade of a fraction, the value of a pattern, and what a rounded
magnitude is. -/

namespace Sys2Proof.Machine

/-- The comparison of a power of two with a fraction, in the rationals. -/
theorem powLe_iff (k : Int) (n d : Nat) (hd : d ≠ 0) :
    powLe k n d = true ↔ (2 : ℚ) ^ k ≤ (n : ℚ) / d := by
  have hdq : (0 : ℚ) < d := by positivity
  rw [le_div_iff₀ hdq]
  simp only [powLe, decide_eq_true_eq]
  obtain ⟨a, rfl | rfl⟩ := k.eq_nat_or_neg
  · rw [show ((a : Int)).toNat = a by omega, show (-(a : Int)).toNat = 0 by omega, zpow_natCast, mul_comm]
    norm_cast
    rw [pow_zero, mul_one]
  · rw [show (-(a : Int)).toNat = 0 by omega, show (- -(a : Int)).toNat = a by omega, zpow_neg, zpow_natCast,
      inv_mul_le_iff₀ (by positivity), mul_comm]
    norm_cast
    rw [pow_zero, one_mul, mul_comm n]

/-- The leading exponent: the fraction lies in its binade. -/
theorem leadExp_spec (n d : Nat) (hn : n ≠ 0) (hd : d ≠ 0) :
    (2 : ℚ) ^ leadExp n d ≤ (n : ℚ) / d ∧ (n : ℚ) / d < 2 ^ (leadExp n d + 1) := by
  have hdq : (0 : ℚ) < d := by positivity
  have hn1 : (2 : ℚ) ^ (Nat.log2 n) ≤ n := by exact_mod_cast Nat.log2_self_le hn
  have hn2 : (n : ℚ) < 2 ^ (Nat.log2 n + 1) := by exact_mod_cast Nat.lt_log2_self (n := n)
  have hd1 : (2 : ℚ) ^ (Nat.log2 d) ≤ d := by exact_mod_cast Nat.log2_self_le hd
  have hd2 : (d : ℚ) < 2 ^ (Nat.log2 d + 1) := by exact_mod_cast Nat.lt_log2_self (n := d)
  have hup : (n : ℚ) / d < 2 ^ ((Nat.log2 n : Int) - Nat.log2 d + 1) := by
    rw [div_lt_iff₀ hdq]
    calc (n : ℚ) < 2 ^ (Nat.log2 n + 1) := hn2
      _ = 2 ^ ((Nat.log2 n : Int) - Nat.log2 d + 1) * 2 ^ Nat.log2 d := by
          rw [← zpow_natCast, ← zpow_natCast, ← zpow_add₀ two_ne_zero]; congr 1; push_cast; ring
      _ ≤ _ := by gcongr
  have hlo : (2 : ℚ) ^ ((Nat.log2 n : Int) - Nat.log2 d - 1) ≤ (n : ℚ) / d := by
    rw [le_div_iff₀ hdq]
    calc (2 : ℚ) ^ ((Nat.log2 n : Int) - Nat.log2 d - 1) * d
        ≤ 2 ^ ((Nat.log2 n : Int) - Nat.log2 d - 1) * 2 ^ (Nat.log2 d + 1) := by gcongr
      _ = 2 ^ Nat.log2 n := by
          rw [← zpow_natCast, ← zpow_natCast, ← zpow_add₀ two_ne_zero]; congr 1; push_cast; ring
      _ ≤ n := hn1
  simp only [leadExp]
  split
  · rename_i h; exact ⟨(powLe_iff _ n d hd).1 h, hup⟩
  · rename_i h
    refine ⟨hlo, ?_⟩
    rw [sub_add_cancel]
    exact lt_of_not_ge fun h' => h ((powLe_iff _ n d hd).2 h')

/-- The value of a nonnegative pattern: its significand times the power of two of its unit. -/
theorem toRat_value (F : Fmt) (b : Nat) (hb : b < F.signBit) :
    (F.value b).toRat =
      (if b / 2 ^ (F.prec - 1) = 0 then (b % 2 ^ (F.prec - 1) : Nat) else (b % 2 ^ (F.prec - 1) + 2 ^ (F.prec - 1) : Nat) : ℚ)
        * 2 ^ ((max (b / 2 ^ (F.prec - 1)) 1 : Nat) - 1 - F.qneg : Int) := by
  simp only [Fmt.value, Nat.mod_eq_of_lt hb, hb, if_true, Frac.toRat]
  generalize hq : ((max (b / 2 ^ (F.prec - 1)) 1 : Nat) - 1 - F.qneg : Int) = q
  have key : ∀ m : Nat, (((m * 2 ^ q.toNat : Nat) : Int) : ℚ) / ((2 ^ (-q).toNat : Nat) : ℚ) = (m : ℚ) * 2 ^ q := by
    intro m
    push_cast
    obtain ⟨a, rfl | rfl⟩ := q.eq_nat_or_neg
    · rw [show ((a : Int)).toNat = a by omega, show (-(a : Int)).toNat = 0 by omega]; simp
    · rw [show (-(a : Int)).toNat = 0 by omega, show (- -(a : Int)).toNat = a by omega, zpow_neg, zpow_natCast]
      simp [div_eq_mul_inv]
  rw [key]
  split <;> rfl


/-- The value of the pattern with exponent field offset `E` and significand `m`. -/
theorem value_pattern (F : Fmt) (E m : Nat) (hp : 2 ≤ F.prec) (hlo : 2 ^ (F.prec - 1) ≤ m ∨ E = 0)
    (hm : m ≤ 2 ^ F.prec) (hs : E * 2 ^ (F.prec - 1) + m < F.signBit) :
    (F.value (E * 2 ^ (F.prec - 1) + m)).toRat = (m : ℚ) * 2 ^ ((E : Int) - F.qneg) := by
  have hpos : 0 < 2 ^ (F.prec - 1) := by positivity
  have hdbl : 2 ^ F.prec = 2 * 2 ^ (F.prec - 1) := by rw [← pow_succ']; congr 1; omega
  rw [toRat_value F _ hs]
  rw [hdbl] at hm
  generalize 2 ^ (F.prec - 1) = P at *
  have hdiv : (E * P + m) / P = E + m / P := by
    rw [add_comm, Nat.add_mul_div_right _ _ hpos, add_comm]
  have hmod : (E * P + m) % P = m % P := by
    rw [add_comm, Nat.add_mul_mod_self_right]
  rw [hdiv, hmod]
  rcases lt_or_ge m P with h | h
  · rcases hlo with h' | rfl
    · omega
    · rw [Nat.div_eq_of_lt h, Nat.mod_eq_of_lt h]; simp
  · rcases Nat.lt_or_ge m (2 * P) with h2 | h2
    · have h1 : m / P = 1 := by rw [Nat.div_eq_iff hpos]; omega
      have h3 : m % P = m - P := by rw [Nat.mod_eq_sub_mod h, Nat.mod_eq_of_lt (by omega)]
      rw [h1, h3, if_neg (by omega), Nat.sub_add_cancel h]
      congr 2; omega
    · obtain rfl : m = 2 * P := by omega
      rw [Nat.mul_div_cancel _ hpos, Nat.mul_mod_left, if_neg (by omega)]
      have : ((max (E + 2) 1 : Nat) : Int) - 1 - F.qneg = ((E : Int) - F.qneg) + 1 := by omega
      rw [this, zpow_add_one₀ two_ne_zero]; push_cast; ring

/-- Every magnitude has an exponent offset and a significand, full unless the value is subnormal. -/
theorem pattern_cases (F : Fmt) (b : Nat) : ∃ E m : Nat, b = E * 2 ^ (F.prec - 1) + m ∧
    (2 ^ (F.prec - 1) ≤ m ∨ E = 0) ∧ m < 2 * 2 ^ (F.prec - 1) := by
  have hpos : 0 < 2 ^ (F.prec - 1) := by positivity
  generalize 2 ^ (F.prec - 1) = P at *
  have h := Nat.div_add_mod b P
  have h' := Nat.mod_lt b hpos
  rcases Nat.eq_zero_or_pos (b / P) with h0 | h0
  · exact ⟨0, b, by simp, .inr rfl, by rw [h0] at h; omega⟩
  · refine ⟨b / P - 1, b % P + P, ?_, .inl (by omega), by omega⟩
    obtain ⟨k, hk⟩ : ∃ k, b / P = k + 1 := ⟨b / P - 1, by omega⟩
    rw [hk] at h ⊢
    rw [Nat.add_sub_cancel]; linarith

/-- The rounded quotient is within one half, and even at one half. -/
theorem roundDiv_rat (n d : Nat) (hd : 0 < d) :
    |(roundDiv n d : ℚ) - (n : ℚ) / d| ≤ 1 / 2 ∧
      (|(roundDiv n d : ℚ) - (n : ℚ) / d| = 1 / 2 → roundDiv n d % 2 = 0) := by
  have hdq : (0 : ℚ) < d := by positivity
  obtain ⟨h1, h2, h3⟩ := roundDiv_nearest n d hd
  have h1q : 2 * (n : ℚ) ≤ (2 * roundDiv n d + 1) * d := by exact_mod_cast h1
  have h2q : 2 * (roundDiv n d : ℚ) * d ≤ 2 * n + d := by exact_mod_cast h2
  have e : (n : ℚ) / d * d = n := by field_simp
  generalize hy : (n : ℚ) / d = y at *
  constructor
  · rw [abs_le]; constructor <;> nlinarith
  · intro h
    apply h3
    rcases (abs_eq (by norm_num)).1 h with h | h
    · right
      have : 2 * (roundDiv n d : ℚ) * d = 2 * n + d := by rw [← e]; linear_combination 2 * (d : ℚ) * h
      exact_mod_cast this
    · left
      have : 2 * (n : ℚ) = (2 * roundDiv n d + 1) * d := by rw [← e]; linear_combination -2 * (d : ℚ) * h
      exact_mod_cast this

/-- What the rounding of a positive magnitude is, inside the format's range: a finite pattern whose significand is the
magnitude in units of its last place, rounded to nearest, ties to even, and whose unit is the magnitude's own. -/
theorem roundMag_spec (F : Fmt) (n d : Nat) (hp : 2 ≤ F.prec) (hn : n ≠ 0) (hd : 0 < d)
    (hB : F.qneg + 2 = 2 ^ (F.expBits - 1) - 1 + F.prec) (hE : 2 ≤ F.expBits)
    (hx : (n : ℚ) / d ≤ 2 ^ (2 ^ (F.expBits - 1) - 1)) :
    ∃ E m : Nat, F.roundMag n d = E * 2 ^ (F.prec - 1) + m ∧ (2 ^ (F.prec - 1) ≤ m ∨ E = 0) ∧ m ≤ 2 ^ F.prec ∧
      E * 2 ^ (F.prec - 1) + m < F.inf ∧
      |(m : ℚ) - (n : ℚ) / d / 2 ^ ((E : Int) - F.qneg)| ≤ 1 / 2 ∧
      (|(m : ℚ) - (n : ℚ) / d / 2 ^ ((E : Int) - F.qneg)| = 1 / 2 → m % 2 = 0) ∧
      (E ≠ 0 → (2 : ℚ) ^ (F.prec - 1) ≤ (n : ℚ) / d / 2 ^ ((E : Int) - F.qneg)) := by
  obtain ⟨hl1, hl2⟩ := leadExp_spec n d hn hd.ne'
  set B := 2 ^ (F.expBits - 1) - 1 with hBdef
  have hB1 : 1 ≤ B := by
    have : 2 ^ 1 ≤ 2 ^ (F.expBits - 1) := Nat.pow_le_pow_right (by norm_num) (by omega)
    omega
  have hinf : F.inf = (2 * B + 1) * 2 ^ (F.prec - 1) := by
    simp only [Fmt.inf]
    congr 1
    have : 2 ^ F.expBits = 2 * 2 ^ (F.expBits - 1) := by rw [← pow_succ']; congr 1; omega
    have h1 : 1 ≤ 2 ^ (F.expBits - 1) := Nat.one_le_two_pow
    omega
  set l := leadExp n d with hl
  have hlB : l ≤ B := by
    have : (2 : ℚ) ^ l ≤ 2 ^ (B : Int) := by rw [zpow_natCast]; exact hl1.trans hx
    exact (zpow_le_zpow_iff_right₀ (by norm_num)).1 this
  set q := F.unitExp n d with hq
  have hqdef : q = max (l - (F.prec - 1 : Nat)) (-(F.qneg : Int)) := rfl
  obtain ⟨E, hEq⟩ : ∃ E : Nat, q = (E : Int) - F.qneg := ⟨(q + F.qneg).toNat, by omega⟩
  have hE' : (q + F.qneg).toNat = E := by omega
  have hy : (n : ℚ) / d / 2 ^ q = ((n * 2 ^ (-q).toNat : Nat) : ℚ) / ((d * 2 ^ q.toNat : Nat) : ℚ) := by
    push_cast
    obtain ⟨a, ha | ha⟩ := q.eq_nat_or_neg
    · rw [ha, show ((a : Int)).toNat = a by omega, show (-(a : Int)).toNat = 0 by omega, zpow_natCast]
      simp [div_div]
    · rw [ha, show (-(a : Int)).toNat = 0 by omega, show (- -(a : Int)).toNat = a by omega, zpow_neg, zpow_natCast]
      simp; ring
  have hr := roundDiv_rat (n * 2 ^ (-q).toNat) (d * 2 ^ q.toNat) (by positivity)
  rw [← hy] at hr
  set m := roundDiv (n * 2 ^ (-q).toNat) (d * 2 ^ q.toNat) with hm
  set y := (n : ℚ) / d / 2 ^ q with hydef
  have h2q : (0 : ℚ) < 2 ^ q := by positivity
  have hyup : y < 2 ^ F.prec := by
    rw [hydef, div_lt_iff₀ h2q, ← zpow_natCast, ← zpow_add₀ two_ne_zero]
    refine hl2.trans_le (zpow_le_zpow_right₀ (by norm_num) (by omega))
  have hylo : E ≠ 0 → (2 : ℚ) ^ (F.prec - 1) ≤ y := by
    intro h0
    rw [hydef, le_div_iff₀ h2q, ← zpow_natCast, ← zpow_add₀ two_ne_zero]
    refine le_trans (zpow_le_zpow_right₀ (by norm_num) (by omega)) hl1
  have mup : ∀ k : Nat, y ≤ k → m ≤ k := by
    intro k hk
    by_contra hc
    have : (k : ℚ) + 1 ≤ m := by exact_mod_cast (by omega : k + 1 ≤ m)
    have := (abs_le.1 hr.1).2
    linarith
  have mlo : ∀ k : Nat, (k : ℚ) ≤ y → k ≤ m := by
    intro k hk
    by_contra hc
    have : (m : ℚ) + 1 ≤ k := by exact_mod_cast (by omega : m + 1 ≤ k)
    have := (abs_le.1 hr.1).1
    linarith
  have hmP : m ≤ 2 ^ F.prec := mup _ (by push_cast; exact hyup.le)
  have hlt : E * 2 ^ (F.prec - 1) + m < F.inf := by
    have hdbl : 2 ^ F.prec = 2 * 2 ^ (F.prec - 1) := by rw [← pow_succ']; congr 1; omega
    have hpos : 0 < 2 ^ (F.prec - 1) := by positivity
    rw [hinf]
    rcases lt_or_ge l B with h | h
    · have hE2 : E + 2 ≤ 2 * B := by omega
      have := Nat.mul_le_mul_right (2 ^ (F.prec - 1)) hE2
      rw [hdbl] at hmP
      nlinarith
    · have hlB' : l = B := le_antisymm hlB h
      have hE2 : E + 1 ≤ 2 * B := by omega
      have hyB : y ≤ ((2 ^ (F.prec - 1) : Nat) : ℚ) := by
        push_cast
        rw [hydef, div_le_iff₀ h2q, ← zpow_natCast, ← zpow_add₀ two_ne_zero]
        refine hx.trans ?_
        rw [← zpow_natCast]
        exact zpow_le_zpow_right₀ (by norm_num) (by omega)
      have := mup _ hyB
      have := Nat.mul_le_mul_right (2 ^ (F.prec - 1)) hE2
      nlinarith
  refine ⟨E, m, ?_, ?_, hmP, hlt, ?_, ?_, ?_⟩
  · simp only [Fmt.roundMag, if_neg hn, ← hq, hE', ← hm]
    exact min_eq_left hlt.le
  · by_cases h0 : E = 0
    · exact .inr h0
    · exact .inl (mlo _ (by push_cast; exact hylo h0))
  all_goals rw [← hEq]
  · exact hr.1
  · exact hr.2
  · exact hylo


/-- The sign bit stands above the exponent field, and so above infinity. -/
theorem signBit_eq (F : Fmt) (hE : 2 ≤ F.expBits) (hp : 2 ≤ F.prec) :
    F.signBit = 2 ^ F.expBits * 2 ^ (F.prec - 1) ∧ F.inf < F.signBit ∧ F.signBit % 2 = 0 := by
  have h : F.signBit = 2 ^ F.expBits * 2 ^ (F.prec - 1) := by
    rw [Fmt.signBit, ← pow_add]; congr 1; omega
  refine ⟨h, ?_, ?_⟩
  · rw [h, Fmt.inf]
    have : 0 < 2 ^ F.expBits := by positivity
    exact Nat.mul_lt_mul_of_pos_right (by omega) (by positivity)
  · rw [Fmt.signBit, show F.expBits + F.prec - 1 = (F.expBits + F.prec - 2) + 1 by omega, pow_succ]; omega

/-- The sign bit negates the value. -/
theorem value_neg (F : Fmt) (b : Nat) (hb : b < F.signBit) : (F.value (F.signBit + b)).toRat = -(F.value b).toRat := by
  have h : (F.signBit + b) % F.signBit = b := by rw [Nat.add_mod_left, Nat.mod_eq_of_lt hb]
  have h' : ¬ F.signBit + b < F.signBit := by omega
  simp only [Fmt.value, Nat.mod_eq_of_lt hb, h, h', hb, if_false, if_true, Frac.toRat]
  push_cast; ring

/-- Without the sign bit the value is not negative. -/
theorem value_nonneg (F : Fmt) (b : Nat) (hb : b < F.signBit) : 0 ≤ (F.value b).toRat := by
  rw [toRat_value F b hb]; split <;> positivity

end Sys2Proof.Machine
end

