-- ==== Sys2Proof/Laws/Script.lean ====
section
/-! SUPPORT. The text forms: a digit written is read back, and what follows a keyword is found. -/

namespace Sys2Proof.Machine

/-- The digit written for a 4-bit value is read as that value (30_encoding R45). -/
@[simp] theorem hexValue_hexDigit (v : BitVec 4) : hexValue (hexDigit v) = some v.toNat := by
  revert v; decide

/-- What follows a keyword in a line that starts with it. -/
@[simp] theorem afterKeyword_append (keyword text : List Char) :
    afterKeyword keyword (keyword ++ text) = some text := by
  simp [afterKeyword, List.isPrefixOf_iff_prefix]

/-- A FRAME line is no FRAME.PLAIN line: the two keywords part at the sixth character. -/
theorem afterKeyword_framePlain_frame (text : List Char) : afterKeyword kwFramePlain (kwFrame ++ text) = none := by
  simp [afterKeyword, kwFramePlain, kwFrame, List.isPrefixOf]

/-- No line with an operand is a line without one. -/
theorem keyword_ne (text : List Char) :
    kwFrame ++ text ≠ kwReset ∧ kwFrame ++ text ≠ kwHandshake ∧
      kwFramePlain ++ text ≠ kwReset ∧ kwFramePlain ++ text ≠ kwHandshake := by
  simp [kwFrame, kwFramePlain, kwReset, kwHandshake]

end Sys2Proof.Machine
end

