-- ==== Sys2Proof/Laws/Step.lean ====
section
/-! SUPPORT. What one step can do, once. -/

namespace Sys2Proof.Machine

/-- A host read of a RES field: its value where the latch defines one, else the fault; a next state either way
(60_exceptions R84). -/
theorem hostRead_cases (f : ResField) (s : State) :
    (∃ w, s.res.bits f = some w ∧ hostRead f s = .next (s.setHost { s.host with got := .res f w })) ∨
    (s.res.bits f = none ∧ hostRead f s = .next (s.raise (.undefinedResultRead f))) := by
  unfold hostRead Res.read
  cases s.res.bits f with
  | some w => exact .inl ⟨w, rfl, rfl⟩
  | none => exact .inr ⟨rfl, rfl⟩

/-- Where a step's next state comes from: RESET asserted, a frame offered, a script line, a host read, or no move. -/
theorem step_cases {s t : State} (h : step s = .next t) :
    (s.pins.reset = true ∧ exec .reset s = .next t) ∨
    (s.pins.reset = false ∧ s.pins.inValid = true ∧ exec (.frame s.pins.frameIn) s = .next t) ∨
    (∃ l rest i, s.pins.reset = false ∧ s.pins.inValid = false ∧ s.host.script = .line l :: rest ∧
      hostDriven l.port = true ∧ decode l = .ok i ∧
      exec i (s.setHost { s.host with script := rest }) = .next t) ∨
    (∃ f rest, s.pins.reset = false ∧ s.pins.inValid = false ∧ s.host.script = .readRes f :: rest ∧
      hostRead f (s.setHost { s.host with script := rest }) = .next t) ∨
    (∃ rest, s.pins.reset = false ∧ s.pins.inValid = false ∧ s.host.script = .readKey :: rest ∧
      hostReadKey (s.setHost { s.host with script := rest }) = .next t) ∨
    (s.pins.reset = false ∧ s.pins.inValid = false ∧ s.host.script = [] ∧ quiet s = .next t) := by
  unfold step fetch at h
  cases hr : s.pins.reset with
  | true => simp [hr] at h; exact .inl ⟨rfl, h⟩
  | false =>
    cases hv : s.pins.inValid with
    | true => simp [hr, hv] at h; exact .inr (.inl ⟨rfl, rfl, h⟩)
    | false =>
      cases hs : s.host.script with
      | nil => simp [hr, hv, hs] at h; simp [h]
      | cons m rest =>
        simp only [hr, hv, hs, Bool.false_eq_true, if_false] at h
        cases m with
        | readRes f => simp only [fetchMove] at h; simp [h]
        | readKey => simp only [fetchMove] at h; simp [h]
        | line l =>
          simp only [fetchMove, fetchLine] at h
          by_cases hp : hostDriven l.port = true
          · simp only [hp, if_true] at h
            cases hd : decode l with
            | error e => simp [hd] at h
            | ok i =>
              simp only [hd] at h
              exact .inr (.inr (.inl ⟨l, rest, i, rfl, rfl, rfl, hp, hd, h⟩))
          · simp [hp] at h

end Sys2Proof.Machine
end

