-- ==== Sys2Proof/Tests/Slice0.lean ====
section
/-! SUPPORT. Tests with results from the spec's vectors (95_test_vectors), and a witness for the hypotheses of each
obligation. -/

namespace Sys2Proof.Tests

open Sys2Proof.Machine

/-! ### Helpers -/

/-- The latch after an outcome. -/
def resOf (o : Host.Outcome State Fault Refusal) : Option Res :=
  match o with
  | .next s => some s.res
  | .fault _ => none
  | .refused _ => none

/-- The transaction in flight after an outcome. -/
def flightOf (o : Host.Outcome State Fault Refusal) : Option Flight :=
  match o with
  | .next s => s.flight
  | .fault _ => none
  | .refused _ => none

/-- The host's fields after an outcome. -/
def hostOf (o : Host.Outcome State Fault Refusal) : Option HostSide :=
  match o with
  | .next s => some s.host
  | .fault _ => none
  | .refused _ => none

/-- What the host's last read returned after an outcome. -/
def gotOf (o : Host.Outcome State Fault Refusal) : Option HostGot := (hostOf o).map HostSide.got

/-- The refusal of an outcome. -/
def refusalOf (o : Host.Outcome State Fault Refusal) : Option Refusal :=
  match o with
  | .next _ => none
  | .fault _ => none
  | .refused r => some r

/-- The instruction a word decodes to. -/
def decoded (l : Line) : Option Instr :=
  match decode l with
  | .ok i => some i
  | .error _ => none

/-- The error a word is rejected with. -/
def rejected (l : Line) : Option DecodeError :=
  match decode l with
  | .ok _ => none
  | .error e => some e

/-- The transaction of vector T1, every stage evaluated (95_test_vectors T1, T3, T5). -/
def t1Flight : Flight :=
  ⟨⟨0x98, 0xE4, 0x66, 0x20, 0x94, 0x46, 0xBF, 0x62⟩, some ⟨0x66, 0x94, 0x98, 0x62, 0xE4, 0xBF, 0x46, 0x20⟩,
    some ⟨0xA2, 0x52, 0x58, 0xF0, 0xA4, 0x9C, 0x9A, 0x3E⟩, some ⟨0xD4, 0x4A, 0x4B, 0x1E, 0x14, 0x93, 0x93, 0x47⟩,
    some ⟨0x50, 0x03, 0xF5, 0x48, 0x0D, 0, 0, 0⟩, some 0x48, some true, some true, some true,
    some (some (.co2 1013))⟩

/-- A state with the transaction of T1 in flight. -/
def inFlight : State := { State.reset with flight := some t1Flight }

/-- The transaction of T1 just accepted, nothing evaluated. -/
def justAccepted : State := State.reset.accept 0x98E466209446BF62

/-- A configuration with a PERM that is no bijection (95_test_vectors T19). -/
def badPerm : State := { State.reset with cfg := { Config.default with perm := ⟨0, 0, 1, 2, 3, 4, 5, 6⟩ } }

/-- The state after the transaction co2_400 of T16. -/
def afterCo2 : State :=
  { State.reset with
    res := .reading 0x500190E10D000000 400 (.co2 400)
    host := ⟨[], [.temperature 0x41B6CCD0], true, [], .nothing, []⟩ }

/-- A state whose host has these moves to make. -/
def withScript (s : State) (moves : List HostMove) : State := { s with host := { s.host with script := moves } }

/-! ### Ill-formed terms are refused -/

/-- Opcode 0x50 is not of the NOREAD row (30_encoding R39). -/
theorem test_noread_co2_opcode_ill_formed : (Instr.noread 0x50 0 0 0 0).wellFormed = false := by decide

/-- Opcode 0x42 is not of the NOREAD row (30_encoding R39). -/
theorem test_noread_temp_opcode_ill_formed : (Instr.noread 0x42 0 0 0 0).wellFormed = false := by decide

/-- A valid frame is not of the BADFRAME row (60_exceptions R77; T3). -/
theorem test_badframe_valid_ill_formed :
    (Instr.badframe ⟨0x50, 0x03, 0xF5, 0x48, 0x0D, 0, 0, 0⟩).wellFormed = false := by decide

/-! ### Decoding words written out from the spec -/

/-- T5 with the reserved bytes of co2_resv (T16): opcode 50, payload 03F5, checksum 48, terminator 0D. -/
theorem test_decode_co2 :
    decoded ⟨.out, [0x50, 0x03, 0xF5, 0x48, 0x0D, 0xAA, 0x55, 0xFF]⟩ = some (.co2 1013 0xAA 0x55 0xFF) := by decide

/-- T7: the valid frame of payload 4383. -/
theorem test_decode_temp : decoded ⟨.out, [0x42, 0x11, 0x1F, 0x72, 0x0D, 0, 0, 0]⟩ = some (.temp 4383 0 0 0) := by
  decide

/-- T2: opcode 6E is unrecognised. -/
theorem test_decode_noread :
    decoded ⟨.out, [0x6E, 0x60, 0xA0, 0x6E, 0x0D, 0, 0, 0]⟩ = some (.noread 0x6E 24736 0 0 0) := by decide

/-- T13: the terminator is compared in all 8 bits, so 8D is a bad frame in spite of opcode 50. -/
theorem test_decode_badframe :
    decoded ⟨.out, [0x50, 0x03, 0xF5, 0x48, 0x8D, 0, 0, 0]⟩ =
      some (.badframe ⟨0x50, 0x03, 0xF5, 0x48, 0x8D, 0, 0, 0⟩) := by decide

/-- R46's example: byte 0 is in bits 63:56. -/
theorem test_decode_frame :
    decoded ⟨.frameIn, [0x98, 0xE4, 0x66, 0x20, 0x94, 0x46, 0xBF, 0x62]⟩ = some (.frame 0x98E466209446BF62) := by
  decide

/-- R45: the operand of FRAME.PLAIN. -/
theorem test_decode_framePlain :
    decoded ⟨.plain, [0x50, 0x01, 0x90, 0xE1, 0x0D, 0, 0, 0]⟩ = some (.framePlain 0x500190E10D000000) := by decide

/-- The RESET signal at level 1 (opcode table: match 1, mask 1). -/
theorem test_decode_reset : decoded ⟨.resetLine, [0x01]⟩ = some .reset := by decide

/-- The report id 0x00 (R44). -/
theorem test_decode_handshake : decoded ⟨.report, [0x00]⟩ = some .handshake := by decide

/-- Verdict code 1 is READING (10_state R16). -/
theorem test_decode_yield : decoded ⟨.verdict, [0x01]⟩ = some .yield := by decide

/-- A frame of seven bytes is rejected (20_memory R28). -/
theorem test_reject_short_frame : rejected ⟨.frameIn, [0, 0, 0, 0, 0, 0, 0]⟩ = some (.wrongLength .frameIn 7) := by decide

/-- Each other rejection by its name. -/
theorem test_reject_control_words :
    rejected ⟨.resetLine, [0x00]⟩ = some (.resetNotAsserted 0x00) ∧
      rejected ⟨.report, [0x01]⟩ = some (.notReportId 0x01) ∧
      rejected ⟨.verdict, [0x02]⟩ = some (.notReading 0x02) := by decide

/-- The opcode table's own bits: RESET is bit 0 = 1, HANDSHAKE byte 0x00, NOREAD terminator 0D in bits 31:24. -/
theorem test_table_words :
    decodeTableWord 8 1 = some .reset ∧ decodeTableWord 8 0 = some .handshake ∧
      decodeTableWord 32 0x0D000000 = some (.noread 0 0 0 0 0) ∧
      decodeTableWord 64 0x5003F5480D000000 = some (.co2 1013 0 0 0) ∧
      decodeTableWord 64 0x42111F720D000000 = some (.temp 4383 0 0 0) := by decide

/-- A step runs the word placed for it: NOREAD with opcode 0 (T16, op00). -/
theorem test_step_runs_noread :
    resOf (step (State.reset.withFetchWord 32 0x0D000000)) = some (.discardUnrecognized 0x000000000D000000 0) := by
  decide

/-- A step runs the words placed for it: RESET empties the latch, HANDSHAKE writes the report of T21. -/
theorem test_step_runs_controls :
    resOf (step (afterCo2.withFetchWord 8 1)) = some .empty ∧
      (hostOf (step (State.reset.withFetchWord 8 0))).map HostSide.reports =
        some [[0x00, 0xC4, 0xC6, 0xC0, 0x92, 0x40, 0x23, 0xDC, 0x1E]] := by decide

/-! ### Text forms (30_encoding R45) -/

/-- The line of program P1. -/
theorem test_assemble_frame :
    assemble "FRAME 0xF5E466208146BF2A".toList = some (.frame 0xF5E466208146BF2A) ∧
      assemble "FRAME.PLAIN 0x500190E10D000000".toList = some (.framePlain 0x500190E10D000000) ∧
      assemble "RESET".toList = some .reset ∧ assemble "HANDSHAKE".toList = some .handshake := by decide

/-- Small letters write the same value, and a character that is no digit writes none. -/
theorem test_hex_digits :
    hexValue 'f' = some 15 ∧ hexValue 'A' = some 10 ∧ hexValue '7' = some 7 ∧ hexValue 'G' = none ∧
      hexValue 'x' = none := by decide

/-- R45's two examples. -/
theorem test_disassemble :
    disassemble ⟨0x50, 0x03, 0xF5, 0x48, 0x0D, 0, 0, 0⟩ = "CO2 1013".toList ∧
      disassemble ⟨0x51, 0x03, 0xF5, 0x48, 0x0D, 0, 0, 0⟩ = "BADFRAME term=1 sum=0".toList := by decide

/-! ### The deobfuscator -/

/-- T18: the direction of the permutation, with a PERM that is not its own inverse. -/
theorem test_permute_direction :
    permute ⟨1, 2, 3, 4, 5, 6, 7, 0⟩ ⟨0x11, 0x22, 0x33, 0x44, 0x55, 0x66, 0x77, 0x88⟩ =
      ⟨0x88, 0x11, 0x22, 0x33, 0x44, 0x55, 0x66, 0x77⟩ := by decide

/-- T1, stage P. -/
theorem test_permute_t1 :
    (flightOf (exec .permute justAccepted)).map Flight.inter =
      some (some ⟨0x66, 0x94, 0x98, 0x62, 0xE4, 0xBF, 0x46, 0x20⟩) := by decide

/-- T1, stage X. -/
theorem test_xorkey_t1 :
    flightOf (exec .xorkey { inFlight with flight := some { t1Flight with xored := none } }) = some t1Flight := by decide

/-- T1, stage R. -/
theorem test_rotate_t1 :
    flightOf (exec .rotate { inFlight with flight := some { t1Flight with rotated := none } }) = some t1Flight := by decide

/-- T11: the wrap from lane 7 to lane 0. -/
theorem test_rotate_wraps : rotate ⟨0, 0, 0, 0, 0, 0, 0, 0x07⟩ = ⟨0xE0, 0, 0, 0, 0, 0, 0, 0⟩ := by decide

/-- The default-instance table of 10_state: ADJ. -/
theorem test_adjust_default :
    adjust Config.default.cstate = ⟨0x84, 0x47, 0x56, 0xD6, 0x07, 0x93, 0x93, 0x47⟩ := by decide

/-- T1, stage S. -/
theorem test_subtract_t1 :
    flightOf (exec .subtract { inFlight with flight := some { t1Flight with out := none } }) = some t1Flight := by decide

/-- T12: the largest wrap and the largest intermediate. -/
theorem test_subtract_ends : subLane 0x00 0xFF = 0x01 ∧ subLane 0xFF 0x00 = 0xFF ∧ subLane 0x4B 0x56 = 0xF5 := by decide

/-- T9, the all-0xFF and ascending rows. -/
theorem test_deobfuscate_t9 :
    deobfuscate Config.default (bytes8 0xFFFFFFFFFFFFFFFF) = bytes8 0xA320D117B068F135 ∧
      deobfuscate Config.default (bytes8 0x0001020304050607) = bytes8 0x3491023CA19128DC := by decide

/-- T18: the whole deobfuscation under the other configuration. -/
theorem test_deobfuscate_t18 :
    deobfuscate ⟨⟨0, 0, 0, 0, 0, 0, 0, 0⟩, ⟨1, 2, 3, 4, 5, 6, 7, 0⟩, ⟨0, 0, 0, 0, 0, 0, 0, 0⟩, .binary32⟩
      (bytes8 0x1122334455667788) = bytes8 0xF1022446688AACCE := by decide

/-- R56's example. -/
theorem test_obfuscate :
    obfuscate Config.default (bytes8 0x500190E10D000000) = bytes8 0xF5E466208146BF2A := by decide

/-! ### The validator and the decoder -/

/-- T13: the largest sum, 0x2FD. -/
theorem test_sum_largest : checksum ⟨0xFF, 0xFF, 0xFF, 0xFD, 0x0D, 0, 0, 0⟩ = 0xFD := by decide

/-- T1, SUM on the transaction in flight. -/
theorem test_sum_t1 :
    flightOf (exec .sum { inFlight with flight := some { t1Flight with sum := none } }) = some t1Flight := by decide

/-- R58: 0x0A, 0x8D and 0x00 are no terminators. -/
theorem test_termOk :
    termOk ⟨0, 0, 0, 0, 0x0D, 0, 0, 0⟩ = true ∧ termOk ⟨0, 0, 0, 0, 0x0A, 0, 0, 0⟩ = false ∧
      termOk ⟨0, 0, 0, 0, 0x8D, 0, 0, 0⟩ = false ∧ termOk ⟨0, 0, 0, 0, 0, 0, 0, 0⟩ = false := by decide

/-- T1, TERM_OK and SUM_OK on the transaction in flight. -/
theorem test_flags_t1 :
    flightOf (exec .termOk { inFlight with flight := some { t1Flight with termOk := none } }) = some t1Flight ∧
      flightOf (exec .sumOk { inFlight with flight := some { t1Flight with sumOk := none } }) = some t1Flight := by
  decide

/-- R60: the four combinations. -/
theorem test_valid_combinations :
    validFlag true true = true ∧ validFlag true false = false ∧ validFlag false true = false ∧
      validFlag false false = false := by decide

/-- T1, VALID and DISPATCH on the transaction in flight. -/
theorem test_valid_dispatch_t1 :
    flightOf (exec .valid { inFlight with flight := some { t1Flight with valid := none } }) = some t1Flight ∧
      flightOf (exec .dispatch { inFlight with flight := some { t1Flight with decoded := none } }) = some t1Flight := by
  decide

/-- T6 and T14: decode is total, with or without validity. -/
theorem test_decodeReading :
    decodeReading .binary32 ⟨0x51, 0x03, 0xF5, 0x48, 0x0D, 0, 0, 0⟩ = none ∧
      decodeReading .binary32 ⟨0x50, 0x01, 0x90, 0xE2, 0x0D, 0, 0, 0⟩ = some (.co2 400) := by decide

/-- G6: the binary32 value of 273.15. -/
theorem test_kelvinOffset : fmt32.round kelvinOffset = 0x43889333 := by decide

/-- T15, binary32: the ends, the sign change and the first rounded payload. -/
theorem test_tempC_binary32 :
    tempC .binary32 0 = 0xC3889333 ∧ tempC .binary32 4370 = 0xBCCCC000 ∧ tempC .binary32 4371 = 0x3D19A000 ∧
      tempC .binary32 12563 = 0x44000266 ∧ tempC .binary32 65535 = 0x456EEC9A := by decide

/-- T15, binary64 then round. -/
theorem test_tempC_binary64 :
    tempC .binary64ThenRound 2323 = 0xC2FFECCD ∧ tempC .binary64ThenRound 4383 = 0x3F49999A ∧
      tempC .binary64ThenRound 6418 = 0x42FFF333 ∧ tempC .binary64ThenRound 12563 = 0x44000266 := by decide

/-! ### Transactions (T16) -/

/-- v1: the first vector of the source. -/
theorem test_frame_v1 :
    resOf (exec (.frame 0x98E466209446BF62) State.reset) = some (.reading 0x5003F5480D000000 1013 (.co2 1013)) := by
  decide

/-- badboth: both sub-causes are recorded, whatever the opcode. -/
theorem test_frame_badboth :
    resOf (exec (.frame 0x767CF6200846BF22) State.reset) =
      some (.discardChecksum false false 0x4212800000000000 4736) := by decide

/-- temp_4736, written as FRAME.PLAIN. -/
theorem test_framePlain_temp :
    resOf (exec (.framePlain 0x421280D40D000000) State.reset) =
      some (.reading 0x421280D40D000000 4736 (.temperature 0x41B6CCD0)) := by decide

/-- FRAME.PLAIN expands to the raw frame of T16. -/
theorem test_framePlain_raw :
    word64 (obfuscate Config.default (bytes8 0x421280D40D000000)) = 0x75E4F6200846BFC2 := by decide

/-- co2_ffff: 65535 ppm is delivered. -/
theorem test_co2 :
    resOf (exec (.co2 65535 0 0 0) State.reset) = some (.reading 0x50FFFF4E0D000000 65535 (.co2 65535)) := by decide

/-- temp_4383. -/
theorem test_temp :
    resOf (exec (.temp 4383 0 0 0) State.reset) =
      some (.reading 0x42111F720D000000 4383 (.temperature 0x3F499A00)) := by decide

/-- opFF. -/
theorem test_noread :
    resOf (exec (.noread 0xFF 65535 0 0 0) State.reset) = some (.discardUnrecognized 0xFFFFFFFD0D000000 65535) := by
  decide

/-- badterm_temp: a terminator of 0, reserved byte FF. -/
theorem test_badframe :
    resOf (exec (.badframe ⟨0x42, 0x12, 0x80, 0xD4, 0, 0, 0, 0xFF⟩) State.reset) =
      some (.discardChecksum false true 0x421280D4000000FF 4736) := by decide

/-- T19: a PERM that is no bijection is refused, and the reversed one is accepted. -/
theorem test_config_refused :
    refusalOf (exec (.frame 0) badPerm) = some (.configInvalid .permNotBijection) ∧
      permBijective ⟨7, 6, 5, 4, 3, 2, 1, 0⟩ = true := by decide

/-! ### Reset, reads and host operations (T20, T21, P1) -/

/-- R103: reset abandons a transaction in flight. -/
theorem test_reset_abandons : flightOf (exec .reset inFlight) = none ∧ resOf (exec .reset inFlight) = some .empty := by
  decide

/-- T20: reads after RESET and after co2_400. -/
theorem test_undefined_reads :
    gotOf (step (withScript State.reset [.readRes .frame])) = some (.fault (.undefinedResultRead .frame)) ∧
      gotOf (step (withScript afterCo2 [.readRes .tempC])) = some (.fault (.undefinedResultRead .tempC)) ∧
      gotOf (step (withScript afterCo2 [.readRes .co2Ppm])) = some (.res .co2Ppm 400) := by decide

/-- 60_exceptions R84: the fault is not final: the host's next move follows, and RESET does not clear it. -/
theorem test_fault_not_final :
    (hostOf (step (withScript State.reset [.readRes .frame, .readKey]))).map HostSide.script = some [.readKey] ∧
      (hostOf (exec .reset (afterCo2.raise (.undefinedResultRead .tempC)))).map HostSide.faults =
        some [.undefinedResultRead .tempC] := by decide

/-- R16: the codes a host reads for VERDICT and KIND. -/
theorem test_codes :
    Res.empty.bits .verdict = some 0 ∧ afterCo2.res.bits .verdict = some 1 ∧ afterCo2.res.bits .kind = some 1 ∧
      (Res.discardChecksum true false 0 0).bits .verdict = some 2 ∧
      (Res.discardUnrecognized 0 0).bits .verdict = some 3 := by decide

/-- T21: KEY_OUT of the default instance. -/
theorem test_keyOut : State.reset.keyOut = 0xC4C6C0924023DC1E := by decide

/-- P1, line 3: the Reading of co2_400 goes to the sink, after what was there. -/
theorem test_yield :
    (hostOf (exec .yield afterCo2)).map HostSide.stream = some [.temperature 0x41B6CCD0, .co2 400] := by decide

/-- P4: after a discard nothing is yielded. -/
theorem test_yield_discard :
    (hostOf (exec .yield { afterCo2 with res := .discardChecksum true false 0 400 })).map HostSide.stream =
      some [.temperature 0x41B6CCD0] := by decide

/-! ### Witnesses: for each obligation with hypotheses, data that meets them all -/

/-- A bijective PERM, which all the completion statements ask for: the default one. -/
theorem witness_accepted_configuration : permBijective State.reset.cfg.perm = true := by decide

theorem witness_DecodeOfEncodeIsTheInstruction :
    (Instr.noread 0x6E 24736 1 2 3).wellFormed = true ∧
      encode (.noread 0x6E 24736 1 2 3) = some ⟨.out, [0x6E, 0x60, 0xA0, 0x6E, 0x0D, 1, 2, 3]⟩ := by decide

theorem witness_EncodeOfDecodeIsTheWord : decode ⟨.verdict, [0x01]⟩ = .ok .yield := rfl

theorem witness_InvalidPermutationIsRefused :
    ¬ Function.Bijective badPerm.cfg.perm.get ∧ Instr.frame 0 ≠ .reset ∧ Instr.frame 0 ≠ .handshake ∧
      Instr.frame 0 ≠ .yield :=
  ⟨fun h => absurd (h.1 (show badPerm.cfg.perm.get 0 = badPerm.cfg.perm.get 1 from rfl)) (by decide),
    by decide, by decide, by decide⟩

theorem witness_ConfigurationIsNeverWritten :
    (∃ t, exec (.frame 0) State.reset = .next t) ∧ (∃ t, step State.reset = .next t) := ⟨⟨_, rfl⟩, ⟨_, rfl⟩⟩

/-- The stage statements' premises: an accepted configuration, a transaction in flight, and its inputs evaluated. -/
theorem witness_stage_statements :
    permBijective inFlight.cfg.perm = true ∧ inFlight.flight = some t1Flight ∧
      t1Flight.inter = some ⟨0x66, 0x94, 0x98, 0x62, 0xE4, 0xBF, 0x46, 0x20⟩ ∧
      t1Flight.xored = some ⟨0xA2, 0x52, 0x58, 0xF0, 0xA4, 0x9C, 0x9A, 0x3E⟩ ∧
      t1Flight.rotated = some ⟨0xD4, 0x4A, 0x4B, 0x1E, 0x14, 0x93, 0x93, 0x47⟩ ∧
      t1Flight.out = some ⟨0x50, 0x03, 0xF5, 0x48, 0x0D, 0, 0, 0⟩ ∧ t1Flight.sum = some 0x48 ∧
      t1Flight.termOk = some true ∧ t1Flight.sumOk = some true := by decide

theorem witness_StageRowsWithoutInput :
    permBijective State.reset.cfg.perm = true ∧ State.reset.flight = none ∧
      justAccepted.flight = some (Flight.start (bytes8 0x98E466209446BF62)) ∧
      (Flight.start (bytes8 0x98E466209446BF62)).inter = none ∧
      (Flight.start (bytes8 0x98E466209446BF62)).xored = none ∧
      (Flight.start (bytes8 0x98E466209446BF62)).rotated = none ∧
      (Flight.start (bytes8 0x98E466209446BF62)).out = none ∧
      (Flight.start (bytes8 0x98E466209446BF62)).sum = none ∧
      (Flight.start (bytes8 0x98E466209446BF62)).termOk = none ∧
      (Flight.start (bytes8 0x98E466209446BF62)).sumOk = none := by decide

/-- The boundary opcodes of the NOREAD row: 0x00, 0xFF and the neighbours of 0x42 and 0x50. -/
theorem witness_NoreadRowLatchesNoReading :
    permBijective State.reset.cfg.perm = true ∧ (0x00 : Byte) ≠ 0x50 ∧ (0x00 : Byte) ≠ 0x42 ∧
      (0x51 : Byte) ≠ 0x50 ∧ (0x43 : Byte) ≠ 0x42 ∧ (0xFF : Byte) ≠ 0x50 ∧ (0xFF : Byte) ≠ 0x42 := by decide

/-- A frame for each way to fail: the sum alone, the terminator alone, both (T13). -/
theorem witness_BadframeRowRecordsBothCauses :
    permBijective State.reset.cfg.perm = true ∧
      ¬ ((0x0D : Byte) = 0x0D ∧ (0x51 : Byte) + 0x03 + 0xF5 = 0x48) ∧
      ¬ ((0x0A : Byte) = 0x0D ∧ (0x50 : Byte) + 0x01 + 0x90 = 0xE1) ∧
      ¬ ((0x00 : Byte) = 0x0D ∧ (0x42 : Byte) + 0x12 + 0x80 = 0x00) := by decide

/-- The largest quotient of the conversion, 65535 / 16, lies within the range in both formats, and so does the range's
end. -/
theorem witness_RoundingIsToNearestTiesToEven :
    0 < (⟨65535, 16⟩ : Frac).den ∧ |(⟨65535, 16⟩ : Frac).toRat| ≤ 2 ^ (2 ^ (fmt32.expBits - 1) - 1) ∧
      |(⟨65535, 16⟩ : Frac).toRat| ≤ 2 ^ (2 ^ (fmt64.expBits - 1) - 1) ∧
      |(⟨2 ^ 127, 1⟩ : Frac).toRat| ≤ 2 ^ (2 ^ (fmt32.expBits - 1) - 1) := by
  have hwide : (2 : ℚ) ^ 127 ≤ 2 ^ (2 ^ (11 - 1) - 1) := pow_le_pow_right₀ (by norm_num) (by norm_num)
  have h : |(⟨65535, 16⟩ : Frac).toRat| ≤ 2 ^ 127 := by norm_num [Frac.toRat]
  exact ⟨by decide, h, h.trans hwide, by norm_num [Frac.toRat, fmt32]⟩

theorem witness_Binary32TemperatureIsExactBelow512 :
    (0 : BitVec 16).toNat ≤ 12562 ∧ (12562 : BitVec 16).toNat ≤ 12562 := by decide

theorem witness_DeobfuscateIsABijection : permBijective Config.default.perm = true := by decide

theorem witness_OutcomeDependsOnFrameAndTablesOnly :
    permBijective afterCo2.cfg.perm = true ∧ afterCo2.cfg = inFlight.cfg := by decide

/-- v1 and co2_resv of T16 agree on bytes 0 to 4 of the DecryptedFrame and differ in bytes 5 to 7. -/
theorem witness_ReservedBytesAreUnread :
    permBijective State.reset.cfg.perm = true ∧
      ∀ i : Fin 8, i.val ≤ 4 → (deobfuscate State.reset.cfg (bytes8 0x98E466209446BF62)).get i =
        (deobfuscate State.reset.cfg (bytes8 0x98E16628949ECC62)).get i := by decide

theorem witness_YieldTakesTheReadingOnce :
    afterCo2.res = .reading 0x500190E10D000000 400 (.co2 400) ∧ afterCo2.host.fresh = true ∧
      State.reset.res.verdict ≠ .reading ∧ State.reset.host.fresh = false := by decide

/-- A defined and an undefined field under the premises of the read statement. -/
theorem witness_HostReadFaultsExactlyOnUndefinedFields :
    (withScript afterCo2 [.readRes .kind]).pins.reset = false ∧
      (withScript afterCo2 [.readRes .kind]).pins.inValid = false ∧
      (withScript afterCo2 [.readRes .kind]).host.script = [.readRes .kind] ∧
      ResField.kind ∈ definedFields afterCo2.res.verdict (afterCo2.res.kind.getD .none) ∧
      (withScript afterCo2 [.readRes .tempC]).host.script = [.readRes .tempC] ∧
      ResField.tempC ∉ definedFields afterCo2.res.verdict (afterCo2.res.kind.getD .none) := by decide

theorem witness_KeyOutIsThePackedKey :
    (withScript inFlight [.readKey]).pins.reset = false ∧ (withScript inFlight [.readKey]).pins.inValid = false ∧
      (withScript inFlight [.readKey]).host.script = [.readKey] := by decide

theorem witness_KindThreeIsNeverRead : afterCo2.res.read .kind = .ok 1 := rfl

theorem witness_TransactionRowsFrame :
    (∃ t, exec (.frame 0) inFlight = .next t) ∧ (∃ t, exec (.framePlain 0) inFlight = .next t) ∧
      (∃ t, exec (.co2 0 1 2 3) inFlight = .next t) ∧ (∃ t, exec (.temp 0 1 2 3) inFlight = .next t) ∧
      (∃ t, exec (.noread 0xFF 0 1 2 3) inFlight = .next t) ∧
      (∃ t, exec (.badframe ⟨0, 0, 0, 0, 0, 0, 0, 0⟩) inFlight = .next t) ∧
      inFlight.adj = adjust inFlight.cfg.cstate :=
  ⟨⟨_, rfl⟩, ⟨_, rfl⟩, ⟨_, rfl⟩, ⟨_, rfl⟩, ⟨_, rfl⟩, ⟨_, rfl⟩, by decide⟩

theorem witness_StageRowsFrame :
    Instr.adjust ∈ stageRows ++ [.deobfuscate] ∧ Instr.deobfuscate ∈ stageRows ++ [.deobfuscate] ∧
      (∃ t, exec .adjust inFlight = .next t) ∧ (∃ t, exec .deobfuscate inFlight = .next t) ∧
      (∃ t, exec .rotate inFlight = .next t) ∧ inFlight.adj = adjust inFlight.cfg.cstate :=
  ⟨by decide, by decide, ⟨_, rfl⟩, ⟨_, rfl⟩, ⟨_, rfl⟩, by decide⟩

/-- An undefined read answers a next state, so the fault list grows in a step. -/
theorem witness_HostReadFaultsExactlyOnUndefinedFields_step :
    ∃ t, step (withScript afterCo2 [.readRes .tempC]) = .next t ∧
      t.host.faults = afterCo2.host.faults ++ [.undefinedResultRead .tempC] := ⟨_, rfl, by decide⟩

theorem witness_HostRowsFrame :
    (∃ t, exec .reset inFlight = .next t) ∧ (∃ t, exec .handshake inFlight = .next t) ∧
      (∃ t, exec .yield afterCo2 = .next t) := ⟨⟨_, rfl⟩, ⟨_, rfl⟩, ⟨_, rfl⟩⟩

/-- One state for each of the three cases of the step. -/
theorem witness_StepRunsThePresentedInstruction :
    (afterCo2.withFetchWord 8 1).pins.reset = true ∧
      (afterCo2.withFetchWord 32 0x0D000000).pins.reset = false ∧
      (afterCo2.withFetchWord 32 0x0D000000).pins.inValid = true ∧
      (afterCo2.withFetchWord 8 0).pins.reset = false ∧ (afterCo2.withFetchWord 8 0).pins.inValid = false ∧
      (afterCo2.withFetchWord 8 0).host.script = [.line ⟨.report, [0x00]⟩] ∧ Port.report ≠ .out ∧
      decoded ⟨.report, [0x00]⟩ = some .handshake := by decide

theorem witness_QuietStepHoldsOrCompletes :
    inFlight.pins.reset = false ∧ inFlight.pins.inValid = false ∧ inFlight.host.script = [] ∧
      inFlight.flight = some t1Flight ∧ permBijective inFlight.cfg.perm = true ∧ afterCo2.flight = none ∧
      afterCo2.pins.reset = false ∧ afterCo2.pins.inValid = false ∧ afterCo2.host.script = [] := by decide

theorem witness_PartialFrameCannotBeOffered :
    (withScript State.reset [.line ⟨.frameIn, [1, 2, 3]⟩]).pins.reset = false ∧
      (withScript State.reset [.line ⟨.frameIn, [1, 2, 3]⟩]).pins.inValid = false ∧
      (withScript State.reset [.line ⟨.frameIn, [1, 2, 3]⟩]).host.script = [.line ⟨.frameIn, [1, 2, 3]⟩] ∧
      ([1, 2, 3] : List Byte).length ≠ 8 := by decide

/-- A sound state with a Reading latched and one in the stream. -/
theorem afterCo2_sound : afterCo2.sound :=
  ⟨⟨by decide, by decide⟩, by decide,
    show valid (bytes8 0x500190E10D000000) = true ∧
      decodeReading .binary32 (bytes8 0x500190E10D000000) = some (.co2 400) ∧
      (400 : BitVec 16) = payload (bytes8 0x500190E10D000000) by decide⟩

theorem witness_StepKeepsTheMachineSound :
    (withScript afterCo2 [.line ⟨.verdict, [0x01]⟩]).sound ∧
      ∃ t, step (withScript afterCo2 [.line ⟨.verdict, [0x01]⟩]) = .next t := ⟨afterCo2_sound, ⟨_, rfl⟩⟩

/-- A step that adds a Reading. -/
theorem witness_StepKeepsTheStreamGenuine :
    (withScript afterCo2 [.line ⟨.verdict, [0x01]⟩]).sound ∧
      ∃ t, step (withScript afterCo2 [.line ⟨.verdict, [0x01]⟩]) = .next t ∧
        t.host.stream = afterCo2.host.stream ++ [.co2 400] := ⟨afterCo2_sound, ⟨_, rfl, by decide⟩⟩

/-- A step that writes a READING verdict, from a state whose latch is empty. -/
theorem witness_ReadingsComeFromValidRecognisedFrames :
    ∃ t, step (State.reset.withFetchWord 64 0x500190E10D000000) = .next t ∧ t.res.verdict = .reading ∧
      t.res ≠ (State.reset.withFetchWord 64 0x500190E10D000000).res := ⟨_, rfl, by decide, by decide⟩

theorem witness_StreamGrowsOnlyByTheLatchedReading :
    ∃ t, step (withScript afterCo2 [.line ⟨.verdict, [0x01]⟩]) = .next t ∧ t.host.stream ≠ afterCo2.host.stream :=
  ⟨_, rfl, by decide⟩

/-- A timeout, a transient error and badsum are skipped; v1 yields (T16). -/
theorem witness_SkipLoopReturnsTheFirstReading :
    ∃ t, nextReading (fun e => e == 7)
      [.timeout, .ioError 1, .frame 0xF5E466208146BF52, .frame 0x98E466209446BF62, .timeout] State.reset =
        .reading (.co2 1013) t [.timeout] := ⟨_, rfl⟩

/-- The results the loop goes past in the two witnesses: a timeout, a transient error and badsum (T16). -/
theorem witness_skippable :
    permBijective Config.default.perm = true ∧
      skippable (fun e => e == 7) Config.default [.timeout, .ioError 1, .frame 0xF5E466208146BF52] ∧
      (resultOf .binary32 (deobfuscate Config.default (bytes8 0x98E466209446BF62))).readingOf = some (.co2 1013) :=
  ⟨by decide, ⟨fun w hw => by simp at hw; subst hw; decide, fun e he => by simp at he; subst he; rfl⟩, by decide⟩

theorem witness_SkipLoopEndsOnlyOnAFatalReadError :
    ∃ t, nextReading (fun e => e == 7) [.timeout, .frame 0xF5E466208146BF52, .ioError 7, .timeout] State.reset =
      .fatal .read t := ⟨_, rfl⟩

/-- An error that the host classes as fatal and one that it does not. -/
theorem witness_HostErrorPolicyFollowsTheTable :
    (fun e => e == 7) 7 = true ∧ (fun e => e == 7) 1 = false ∧
      startSession (fun e => e == 7) .done (.failed 7) State.reset = .fatal .handshake State.reset.sendReport ∧
      startSession (fun e => e == 7) .done (.failed 1) State.reset = .ready State.reset.sendReport := by decide

theorem witness_OtherTablesStartInTheResetState : ∃ t, exec .reset badPerm = .next t := ⟨_, rfl⟩

/-- The tables with the identity PERM, an accepted configuration that is not the default one. -/
theorem witness_ResetStateIsSound : permBijective ⟨0, 1, 2, 3, 4, 5, 6, 7⟩ = true := by decide

/-- A run of one transaction and one YIELD from a sound state with an empty stream. -/
theorem witness_StreamIsGenuineAlongEveryRun :
    ∃ t u, (withScript State.reset [.line ⟨.frameIn, [0x98, 0xE4, 0x66, 0x20, 0x94, 0x46, 0xBF, 0x62]⟩,
        .line ⟨.verdict, [0x01]⟩]).sound ∧ State.reset.host.stream = [] ∧
      step (withScript State.reset [.line ⟨.frameIn, [0x98, 0xE4, 0x66, 0x20, 0x94, 0x46, 0xBF, 0x62]⟩,
        .line ⟨.verdict, [0x01]⟩]) = .next u ∧ step u = .next t ∧ t.host.stream = [.co2 1013] :=
  ⟨_, _, ⟨⟨by decide, by decide⟩, by decide, trivial⟩, rfl, rfl, rfl, by decide⟩

end Sys2Proof.Tests
end

