-- ==== Sys2Proof/Proofs/Configuration.lean ====
section
/-! SUPPORT. No operation of the unit writes the configuration (00_scope R5): each operation of the state, then each
instruction, then a step. -/

namespace Sys2Proof.Machine

@[simp] theorem State.onFlight_cfg (s : State) (g : Flight → Flight) : (s.onFlight g).cfg = s.cfg := rfl
@[simp] theorem State.stageDeobfuscate_cfg (s : State) : s.stageDeobfuscate.cfg = s.cfg := rfl
@[simp] theorem State.doReset_cfg (s : State) : s.doReset.cfg = s.cfg := rfl
@[simp] theorem State.sendReport_cfg (s : State) : s.sendReport.cfg = s.cfg := rfl
@[simp] theorem State.raise_cfg (s : State) (r : Fault) : (s.raise r).cfg = s.cfg := rfl
@[simp] theorem State.publish_cfg (s : State) (r : Reading) : (s.publish r).cfg = s.cfg := rfl

@[simp] theorem State.complete_cfg (s : State) : s.complete.cfg = s.cfg := by
  obtain h | ⟨f, -, h⟩ := complete_cases s <;> simp [h]

@[simp] theorem State.transact_cfg (s : State) (w : BitVec 64) : (s.transact w).cfg = s.cfg := by
  simp [transact_eq]

/-- What the guard lets through keeps the configuration if the guarded state does. -/
theorem guarded_keeps_cfg {s t u : State} (h : s.guarded t = .next u) (ht : t.cfg = s.cfg) : u.cfg = s.cfg := by
  obtain ⟨-, rfl⟩ := (guarded_next_iff s t u).1 h
  exact ht

/-- YIELD hands the latched Reading to the sink or changes nothing (43_frame_transaction R70, 60_exceptions R90). -/
theorem execYield_cases (s : State) :
    execYield s = .next s ∨
      ∃ r, s.res.readingOf = some r ∧ s.host.fresh = true ∧ execYield s = .next (s.publish r) := by
  unfold execYield
  cases hr : s.res.readingOf with
  | none => exact .inl rfl
  | some r => cases hf : s.host.fresh <;> simp

theorem execYield_keeps_cfg {s t : State} (h : execYield s = .next t) : t.cfg = s.cfg := by
  obtain hy | ⟨r, -, -, hy⟩ := execYield_cases s
  · cases hy.symm.trans h; rfl
  · cases hy.symm.trans h; exact State.publish_cfg s r

/-- Every row of the opcode table keeps the configuration: all but the three host rows are guarded, and what they guard
is a transaction, a latched verdict or an evaluated stage. -/
theorem exec_keeps_cfg {i : Instr} {s t : State} (h : exec i s = .next t) : t.cfg = s.cfg := by
  cases i with
  | frame | framePlain => exact guarded_keeps_cfg h (State.transact_cfg s _)
  | co2 | temp | noread | badframe => exact guarded_keeps_cfg h (latch_cfg s _)
  | adjust => exact guarded_keeps_cfg h (State.setAdj_cfg s _)
  | deobfuscate => exact guarded_keeps_cfg h (State.stageDeobfuscate_cfg s)
  | permute | xorkey | rotate | subtract | sum | termOk | sumOk | valid | dispatch =>
    exact guarded_keeps_cfg h (State.onFlight_cfg s _)
  | reset => cases h; exact State.doReset_cfg s
  | handshake => cases h; exact State.sendReport_cfg s
  | yield => exact execYield_keeps_cfg h

/-- A host read of a RES field writes only the host's own fields (20_memory R29). -/
theorem hostRead_keeps_cfg {f : ResField} {s t : State} (h : hostRead f s = .next t) : t.cfg = s.cfg := by
  obtain ⟨w, -, hread⟩ | ⟨-, hread⟩ := hostRead_cases f s
  · cases hread.symm.trans h; rfl
  · cases hread.symm.trans h; exact State.raise_cfg s _

/-- With no move of the host, an idle unit stays as it is and a transaction in flight completes. -/
theorem quiet_keeps_cfg {s t : State} (h : quiet s = .next t) : t.cfg = s.cfg := by
  unfold quiet at h
  cases hf : s.flight with
  | none => simp only [hf] at h; cases h; rfl
  | some f => simp only [hf] at h; exact guarded_keeps_cfg h (State.complete_cfg s)

/-- A step keeps the configuration, wherever its next state comes from (`step_cases`); taking a move off the script
writes the host's fields only. -/
theorem step_keeps_cfg {s t : State} (h : step s = .next t) : t.cfg = s.cfg := by
  obtain ⟨-, hx⟩ | ⟨-, -, hx⟩ | ⟨l, rest, i, -, -, -, -, -, hx⟩ | ⟨f, rest, -, -, -, hx⟩ | ⟨rest, -, -, -, hx⟩ |
    ⟨-, -, -, hx⟩ := step_cases h
  · exact exec_keeps_cfg hx
  · exact exec_keeps_cfg hx
  · exact (exec_keeps_cfg hx).trans (State.setHost_cfg s _)
  · exact (hostRead_keeps_cfg hx).trans (State.setHost_cfg s _)
  · cases hx; rfl
  · exact quiet_keeps_cfg hx

/-- Settles O8: each instruction and each step keeps the configuration (00_scope R5). -/
theorem configurationIsNeverWritten : Obligations.ConfigurationIsNeverWritten :=
  fun _ _ => ⟨fun _ => exec_keeps_cfg, step_keeps_cfg⟩

end Sys2Proof.Machine
end

