-- ==== Sys2Proof/Proofs/Outcome.lean ====
section
/-! SUPPORT. The latch after a transaction, as a function of the frame and the configuration (10_state R21). -/

namespace Sys2Proof.Machine

/-- A transaction latches the result of its own frame, whatever was latched or in flight before
(43_frame_transaction R69). -/
@[simp] theorem State.transact_res (s : State) (w : BitVec 64) :
    (s.transact w).res = resultOf s.cfg.tempEval (deobfuscate s.cfg (bytes8 w)) := by
  simp [transact_eq]

/-- With an accepted configuration FRAME always completes its transaction (92_eei_decisions D6). -/
theorem execFrame_of_bijective {s : State} (h : permBijective s.cfg.perm = true) (w : BitVec 64) :
    exec (.frame w) s = .next (s.transact w) :=
  guarded_of_bijective s _ h

/-- Settles O33: both latches are the same function of the frame and the shared configuration (10_state R21). -/
theorem outcomeDependsOnFrameAndTablesOnly : Obligations.OutcomeDependsOnFrameAndTablesOnly := by
  intro s s' w hperm hcfg
  have hperm' : permBijective s'.cfg.perm = true := hcfg ▸ hperm
  exact ⟨_, _, execFrame_of_bijective hperm w, execFrame_of_bijective hperm' w, by simp [hcfg]⟩

end Sys2Proof.Machine
end

