-- ==== Sys2Proof/Proofs/HostReads.lean ====
section
/-! SUPPORT. Host reads of RES: the fields the latch gives a value are those of R17's table; the faults that reads raise
stay recorded, and no step ends in one (10_state R17, R18; 60_exceptions R84). -/

namespace Sys2Proof.Machine

/-- The latch has bits for a field exactly where R17's table defines it, row by row (10_state R17, R18). -/
theorem Res.bits_isSome (r : Res) (f : ResField) :
    (r.bits f).isSome = decide (f ∈ definedFields r.verdict (r.kind.getD .none)) := by
  cases r with
  | empty | discardChecksum | discardUnrecognized => cases f <;> rfl
  | reading _ _ rd =>
    cases rd with
    | co2 | temperature => cases f <;> rfl

/-- A host read at the head of the script is the step, when no signal goes before it. -/
theorem step_readRes {s : State} {f : ResField} {rest : List HostMove} (hreset : s.pins.reset = false)
    (hvalid : s.pins.inValid = false) (hscript : s.host.script = .readRes f :: rest) :
    step s = hostRead f (s.setHost { s.host with script := rest }) := by
  simp [step, fetch, fetchMove, hreset, hvalid, hscript]

/-! What each operation leaves of the host's fields, and of the faults among them. -/

@[simp] theorem State.onFlight_host (s : State) (g : Flight → Flight) : (s.onFlight g).host = s.host := rfl
@[simp] theorem State.stageDeobfuscate_host (s : State) : s.stageDeobfuscate.host = s.host := rfl

@[simp] theorem State.transact_host (s : State) (w : BitVec 64) :
    (s.transact w).host = { s.host with fresh := true } := by
  simp [transact_eq]

theorem latch_faults (s : State) (r : Res) : (s.latch r).host.faults = s.host.faults := rfl

theorem State.complete_faults (s : State) : s.complete.host.faults = s.host.faults := by
  obtain h | ⟨f, -, h⟩ := complete_cases s <;> simp [h]

/-- What the guard lets through keeps the faults if the guarded state does. -/
theorem guarded_keeps_faults {s t u : State} (h : s.guarded t = .next u) (ht : t.host.faults = s.host.faults) :
    u.host.faults = s.host.faults := by
  obtain ⟨-, rfl⟩ := (guarded_next_iff s t u).1 h
  exact ht

theorem execYield_keeps_faults {s t : State} (h : execYield s = .next t) : t.host.faults = s.host.faults := by
  obtain hy | ⟨r, -, -, hy⟩ := execYield_cases s <;> (cases hy.symm.trans h; rfl)

/-- No row of the opcode table clears a recorded fault or raises one (60_exceptions R84). -/
theorem exec_keeps_faults {i : Instr} {s t : State} (h : exec i s = .next t) : t.host.faults = s.host.faults := by
  cases i with
  | frame | framePlain => exact guarded_keeps_faults h (by simp)
  | co2 | temp | noread | badframe => exact guarded_keeps_faults h (latch_faults s _)
  | adjust => exact guarded_keeps_faults h (congrArg HostSide.faults (State.setAdj_host s _))
  | deobfuscate => exact guarded_keeps_faults h (congrArg HostSide.faults (State.stageDeobfuscate_host s))
  | permute | xorkey | rotate | subtract | sum | termOk | sumOk | valid | dispatch =>
    exact guarded_keeps_faults h (congrArg HostSide.faults (State.onFlight_host s _))
  | reset | handshake => cases h; rfl
  | yield => exact execYield_keeps_faults h

theorem quiet_keeps_faults {s t : State} (h : quiet s = .next t) : t.host.faults = s.host.faults := by
  unfold quiet at h
  cases hf : s.flight with
  | none => simp only [hf] at h; cases h; rfl
  | some f => simp only [hf] at h; exact guarded_keeps_faults h (State.complete_faults s)

/-- A host read records the fault of an undefined field after those raised before, or records none. -/
theorem hostRead_adds_faults {f : ResField} {s t : State} (h : hostRead f s = .next t) :
    ∃ raised, t.host.faults = s.host.faults ++ raised := by
  obtain ⟨w, -, hread⟩ | ⟨-, hread⟩ := hostRead_cases f s
  · cases hread.symm.trans h; exact ⟨[], (List.append_nil _).symm⟩
  · cases hread.symm.trans h; exact ⟨[.undefinedResultRead f], rfl⟩

/-- The faults recorded so far stay recorded: only a host read of a field adds to them (`step_cases`). -/
theorem step_adds_faults {s t : State} (h : step s = .next t) :
    ∃ raised, t.host.faults = s.host.faults ++ raised := by
  have unchanged (hkeep : t.host.faults = s.host.faults) : ∃ raised, t.host.faults = s.host.faults ++ raised :=
    ⟨[], hkeep.trans (List.append_nil _).symm⟩
  obtain ⟨-, hx⟩ | ⟨-, -, hx⟩ | ⟨l, rest, i, -, -, -, -, -, hx⟩ | ⟨f, rest, -, -, -, hx⟩ | ⟨rest, -, -, -, hx⟩ |
    ⟨-, -, -, hx⟩ := step_cases h
  · exact unchanged (exec_keeps_faults hx)
  · exact unchanged (exec_keeps_faults hx)
  · exact unchanged (by simpa using exec_keeps_faults hx)
  · simpa using hostRead_adds_faults hx
  · cases hx; exact unchanged rfl
  · exact unchanged (quiet_keeps_faults hx)

/-! No outcome is a fault. -/

theorem execYield_ne_fault (s : State) (r : Fault) : execYield s ≠ .fault r := by
  obtain hy | ⟨_, -, -, hy⟩ := execYield_cases s <;> simp [hy]

/-- Every row of the opcode table is guarded, or answers a next state outright. -/
theorem exec_ne_fault (i : Instr) (s : State) (r : Fault) : exec i s ≠ .fault r := by
  cases i with
  | reset | handshake => exact nofun
  | yield => exact execYield_ne_fault s r
  | _ => exact guarded_ne_fault s _ r

theorem hostRead_ne_fault (f : ResField) (s : State) (r : Fault) : hostRead f s ≠ .fault r := by
  obtain ⟨w, -, hread⟩ | ⟨-, hread⟩ := hostRead_cases f s <;> simp [hread]

theorem quiet_ne_fault (s : State) (r : Fault) : quiet s ≠ .fault r := by
  unfold quiet
  split
  · exact nofun
  · exact guarded_ne_fault s _ r

/-- A script line that runs no instruction is refused (20_memory R28, 60_exceptions R92). -/
theorem fetchLine_ne_done_fault (l : Line) (s : State) (r : Fault) : fetchLine l s ≠ .done (.fault r) := by
  unfold fetchLine
  split
  · split <;> simp
  · simp

theorem fetchMove_ne_done_fault (m : HostMove) (s : State) (r : Fault) : fetchMove m s ≠ .done (.fault r) := by
  cases m with
  | line l => exact fetchLine_ne_done_fault l s r
  | readRes f => simpa [fetchMove] using hostRead_ne_fault f s r
  | readKey => simp [fetchMove, hostReadKey]

theorem fetch_ne_done_fault (s : State) (r : Fault) : fetch s ≠ .done (.fault r) := by
  unfold fetch
  split
  · simp
  · split
    · simp
    · split
      · exact fetchMove_ne_done_fault _ _ r
      · simpa using quiet_ne_fault s r

/-- The fault of an undefined read is never final (60_exceptions R84). -/
theorem step_ne_fault (s : State) (r : Fault) : step s ≠ .fault r := by
  unfold step
  cases hf : fetch s with
  | run i s' => exact exec_ne_fault i s' r
  | done o => exact fun h => fetch_ne_done_fault s r (hf.trans (congrArg Action.done h))

/-- Settles O39: the latch's bits decide the read (`hostRead_cases`), and they exist exactly for R17's fields. -/
theorem hostReadFaultsExactlyOnUndefinedFields : Obligations.HostReadFaultsExactlyOnUndefinedFields := by
  intro s
  refine ⟨fun f rest hreset hvalid hscript => ?_, fun t => step_adds_faults, step_ne_fault s⟩
  rw [step_readRes hreset hvalid hscript]
  have hdefined := s.res.bits_isSome f
  obtain ⟨w, hbits, hread⟩ | ⟨hbits, hread⟩ := hostRead_cases f (s.setHost { s.host with script := rest })
  · rw [State.setHost_res] at hbits
    rw [hbits] at hdefined
    rw [if_pos (of_decide_eq_true hdefined.symm)]
    exact ⟨w, hbits, hread⟩
  · rw [State.setHost_res] at hbits
    rw [hbits] at hdefined
    rw [if_neg (of_decide_eq_false hdefined.symm)]
    exact hread

end Sys2Proof.Machine
end

