-- ==== Sys2Proof/Proofs/Encoding.lean ====
section
/-! SUPPORT. The opcode map as conditions on the frame's bytes, and the bytes of the feature report (30_encoding R39,
R42, R44). -/

namespace Sys2Proof

open Sys2Proof.Machine

/-- The entries read by index are the list of the array. -/
theorem Lanes.map_get_finRange {α : Type} (a : Lanes α) : (List.finRange 8).map a.get = a.toList := rfl

/-- Which class the opcode map answers, by validity and then the opcode (30_encoding R39): in each case of
`classify_cases` the other classes fail, as constructors differ and no opcode is in two of them. -/
theorem classify_class_iff (out : Lanes Byte) :
    (classify out = .badframe out ↔ ¬ valid out = true) ∧
    ((∃ p r5 r6 r7, classify out = .co2 p r5 r6 r7) ↔ valid out = true ∧ opcode out = opCo2) ∧
    ((∃ p r5 r6 r7, classify out = .temp p r5 r6 r7) ↔ valid out = true ∧ opcode out = opTemp) ∧
    ((∃ op p r5 r6 r7, classify out = .noread op p r5 r6 r7) ↔
      valid out = true ∧ opcode out ≠ opCo2 ∧ opcode out ≠ opTemp) := by
  have hne : opCo2 ≠ opTemp := by decide
  obtain ⟨hv, hc⟩ | ⟨hv, hop, hc⟩ | ⟨hv, hop, hc⟩ | ⟨hv, hop, hc⟩ := classify_cases out
  · simp [hc, hv]
  · simp [hc, hv, hop, hne]
  · simp [hc, hv, hop, hne.symm]
  · obtain ⟨hnotCo2, hnotTemp⟩ : opcode out ≠ opCo2 ∧ opcode out ≠ opTemp := by simpa [unrecognized] using hop
    simp [hc, hv, hnotCo2, hnotTemp]

/-- Settles O3: the classes of `classify_class_iff`, with validity written as its two conditions on the bytes. -/
theorem everyDecryptedFrameHasOneClass : Obligations.EveryDecryptedFrameHasOneClass := by
  intro out
  have hclass := classify_class_iff out
  simp only [valid_iff, and_assoc] at hclass
  exact hclass

/-- The report's nine bytes: unpacking KEY_OUT gives KEY back (`bytes8_word64`; 30_encoding R44). -/
theorem featureReport_eq (s : State) : s.featureReport = 0x00 :: (List.finRange 8).map s.cfg.key.get := by
  rw [State.featureReport, State.keyOut, bytes8_word64, Lanes.map_get_finRange]

/-- Settles O37: HANDSHAKE sends the report and does nothing else (`sendReport_eq`), and its bytes are 0x00 and KEY. -/
theorem handshakeWritesTheKeyReport : Obligations.HandshakeWritesTheKeyReport := by
  intro s
  have hexec : exec .handshake s = .next s.sendReport := rfl
  rw [hexec, sendReport_eq, featureReport_eq]

end Sys2Proof
end

