-- ==== Sys2Proof/Proofs/Deobfuscator.lean ====
section
/-! SUPPORT. The deobfuscator's stages, lane by lane, and its rows on a transaction in flight (40_deobfuscator R47 to
R53). -/

namespace Sys2Proof

/-! Reading a lane of an array that was written. -/

@[simp] theorem Lanes.get_ofFn {α : Type} (f : Fin 8 → α) (i : Fin 8) : (Lanes.ofFn f).get i = f i := by
  fin_cases i <;> rfl

/-- Writing one entry updates it and no other. -/
theorem Lanes.get_set {α : Type} (a : Lanes α) (j : Fin 8) (v : α) :
    (a.set j v).get = Function.update a.get j v := by
  funext i
  fin_cases j <;> fin_cases i <;> rfl

end Sys2Proof

namespace Sys2Proof.Machine

/-! Stage P (R47). -/

/-- The check of PERM finds every index among the entries. -/
theorem permBijective_iff_surjective (perm : Lanes (Fin 8)) :
    permBijective perm = true ↔ Function.Surjective perm.get := by
  have hmem (j : Fin 8) : perm.toList.contains j = true ↔ ∃ i, perm.get i = j := by
    simp [← Lanes.map_get_finRange]
  simp only [permBijective, Bool.and_eq_true, hmem, and_assoc]
  simp [Function.Surjective, Fin.forall_fin_succ]

/-- No two indices of an accepted PERM go to the same lane (00_scope R3). -/
theorem get_injective_of_permBijective {perm : Lanes (Fin 8)} (h : permBijective perm = true) :
    Function.Injective perm.get :=
  Finite.injective_iff_surjective.2 ((permBijective_iff_surjective perm).1 h)

/-- One write of PERMUTE: `INTER[PERM[i]] <- RAW[i]`. -/
def writePermuted (perm : Lanes (Fin 8)) (raw inter : Lanes Byte) (i : Fin 8) : Lanes Byte :=
  inter.set (perm.get i) (raw.get i)

/-- PERMUTE is its eight writes, in the order of the indices. -/
theorem permute_eq_foldl (perm : Lanes (Fin 8)) (raw : Lanes Byte) :
    permute perm raw = (List.finRange 8).foldl (writePermuted perm raw) raw := rfl

/-- After the writes of the indices `is`, each of them is in its lane: a later write goes to another lane. -/
theorem get_foldl_writePermuted {perm : Lanes (Fin 8)} (hinj : Function.Injective perm.get) (raw inter : Lanes Byte)
    {i : Fin 8} {is : List (Fin 8)} (hi : i ∈ is) :
    (is.foldl (writePermuted perm raw) inter).get (perm.get i) = raw.get i := by
  induction is using List.reverseRecOn with
  | nil => cases hi
  | append_singleton is j ih =>
    rw [List.foldl_append, List.foldl_cons, List.foldl_nil, writePermuted, Lanes.get_set]
    by_cases hij : i = j
    · rw [hij, Function.update_self]
    · rw [Function.update_of_ne (hinj.ne hij)]
      exact ih (by simpa [hij] using hi)

/-- `INTER[PERM[i]] = RAW[i]` for an accepted PERM (R47). -/
theorem permute_get {perm : Lanes (Fin 8)} (h : permBijective perm = true) (raw : Lanes Byte) (i : Fin 8) :
    (permute perm raw).get (perm.get i) = raw.get i := by
  rw [permute_eq_foldl]
  exact get_foldl_writePermuted (get_injective_of_permBijective h) raw raw (List.mem_finRange i)

/-! Stages X, R, A and S, one lane at a time (R48, R49, R51, R52). -/

@[simp] theorem xorKey_get (key inter : Lanes Byte) (i : Fin 8) :
    (xorKey key inter).get i = inter.get i ^^^ key.get i :=
  Lanes.get_ofFn _ i

@[simp] theorem rotate_get (xored : Lanes Byte) (i : Fin 8) :
    (rotate xored).get i = rotateLane (xored.get i) (xored.get (i + 7)) :=
  Lanes.get_ofFn _ i

@[simp] theorem adjust_get (cstate : Lanes Byte) (i : Fin 8) : (adjust cstate).get i = nibbleSwap (cstate.get i) :=
  Lanes.get_ofFn _ i

@[simp] theorem subtract_get (adj rotated : Lanes Byte) (i : Fin 8) :
    (subtract adj rotated).get i = subLane (rotated.get i) (adj.get i) :=
  Lanes.get_ofFn _ i

/-- The rules' `& 0xFF` keeps a number's low byte. -/
theorem and_0xFF_eq_mod (n : Nat) : n &&& 0xFF = n % 2 ^ 8 := Nat.and_two_pow_sub_one_eq_mod n 8

/-- Shifting within the byte is shifting the numbers and masking: only the left shift leaves the byte. -/
theorem toNat_ushiftRight_or_shiftLeft (x y : Byte) (m n : Nat) :
    (x >>> m ||| y <<< n).toNat = (x.toNat >>> m ||| y.toNat <<< n) &&& 0xFF := by
  have hright : x.toNat >>> m % 2 ^ 8 = x.toNat >>> m :=
    Nat.mod_eq_of_lt ((Nat.shiftRight_le _ _).trans_lt x.isLt)
  rw [and_0xFF_eq_mod, Nat.or_mod_two_pow, hright, BitVec.toNat_or, BitVec.toNat_ushiftRight,
    BitVec.toNat_shiftLeft]

/-- R49's formula on unbounded numbers. -/
theorem rotateLane_toNat (cur prev : Byte) :
    (rotateLane cur prev).toNat = (cur.toNat >>> 3 ||| prev.toNat <<< 5) &&& 0xFF :=
  toNat_ushiftRight_or_shiftLeft cur prev 3 5

/-- R51's formula on unbounded numbers. -/
theorem nibbleSwap_toNat (b : Byte) : (nibbleSwap b).toNat = (b.toNat >>> 4 ||| b.toNat <<< 4) &&& 0xFF :=
  toNat_ushiftRight_or_shiftLeft b b 4 4

/-- R52's formula on natural numbers: with 0x100 added the difference never underflows. -/
theorem subLane_toNat (r a : Byte) : (subLane r a).toNat = (0x100 + r.toNat - a.toNat) &&& 0xFF := by
  rw [and_0xFF_eq_mod, subLane]
  bv_omega

/-! Each stage on a transaction in flight whose input is evaluated. -/

section
variable {s : State} {f : Flight} (hf : s.flight = some f)
include hf

theorem State.stagePermute_of_flight :
    s.stagePermute = { s with flight := some { f with inter := some (permute s.cfg.perm f.raw) } } :=
  onFlight_some s _ f hf

theorem State.stageXorkey_of_inter {inter : Lanes Byte} (hinter : f.inter = some inter) :
    s.stageXorkey = { s with flight := some { f with xored := some (xorKey s.cfg.key inter) } } := by
  rw [State.stageXorkey, onFlight_some s _ f hf, hinter]
  rfl

theorem State.stageRotate_of_xored {xored : Lanes Byte} (hxored : f.xored = some xored) :
    s.stageRotate = { s with flight := some { f with rotated := some (rotate xored) } } := by
  rw [State.stageRotate, onFlight_some s _ f hf, hxored]
  rfl

theorem State.stageSubtract_of_rotated {rotated : Lanes Byte} (hrotated : f.rotated = some rotated) :
    s.stageSubtract = { s with flight := some { f with out := some (subtract s.adj rotated) } } := by
  rw [State.stageSubtract, onFlight_some s _ f hf, hrotated]
  rfl

end

/-! The rows with an accepted configuration: the guard passes and the row's stage is the next state. -/

section
variable (s : State) (h : permBijective s.cfg.perm = true)
include h

theorem exec_permute_of_bijective : exec .permute s = .next s.stagePermute := guarded_of_bijective s _ h
theorem exec_xorkey_of_bijective : exec .xorkey s = .next s.stageXorkey := guarded_of_bijective s _ h
theorem exec_rotate_of_bijective : exec .rotate s = .next s.stageRotate := guarded_of_bijective s _ h
theorem exec_adjust_of_bijective : exec .adjust s = .next s.stageAdjust := guarded_of_bijective s _ h
theorem exec_subtract_of_bijective : exec .subtract s = .next s.stageSubtract := guarded_of_bijective s _ h
theorem exec_deobfuscate_of_bijective : exec .deobfuscate s = .next s.stageDeobfuscate := guarded_of_bijective s _ h

end

/-- The guard refuses another configuration (60_exceptions R83). -/
theorem guarded_of_not_bijective (s t : State) (h : permBijective s.cfg.perm = false) :
    s.guarded t = .refused (.configInvalid .permNotBijection) := by
  simp [State.guarded, h]

/-- Settles O9: each write of PERMUTE goes to a lane of its own (`permute_get`). -/
theorem permuteMovesEachByteToItsIndex : Obligations.PermuteMovesEachByteToItsIndex := by
  intro s f hf
  refine ⟨fun hperm => ⟨permute s.cfg.perm f.raw, permute_get hperm f.raw, ?_⟩, guarded_of_not_bijective s _⟩
  rw [exec_permute_of_bijective s hperm, State.stagePermute_of_flight hf]

/-- Settles O10: the exclusive or is taken lane by lane (`xorKey_get`). -/
theorem xorkeyXorsEachLaneWithTheKey : Obligations.XorkeyXorsEachLaneWithTheKey := by
  intro s f inter hperm hf hinter
  refine ⟨xorKey s.cfg.key inter, xorKey_get s.cfg.key inter, ?_⟩
  rw [exec_xorkey_of_bijective s hperm, State.stageXorkey_of_inter hf hinter]

/-- Settles O11: the rotated lane is R49's number (`rotateLane_toNat`). -/
theorem rotateTakesHighBitsAndThePreviousLowBits : Obligations.RotateTakesHighBitsAndThePreviousLowBits := by
  intro s f xored hperm hf hxored
  refine ⟨rotate xored, fun i => ?_, ?_⟩
  · rw [rotate_get, rotateLane_toNat]
  · rw [exec_rotate_of_bijective s hperm, State.stageRotate_of_xored hf hxored]

/-- Settles O13: ADJ is the nibble swap of CSTATE (`nibbleSwap_toNat`), and the row writes ADJ alone. -/
theorem adjustSwapsTheNibblesOfCstate : Obligations.AdjustSwapsTheNibblesOfCstate := by
  intro s hperm
  refine ⟨adjust s.cfg.cstate, fun i => ?_, exec_adjust_of_bijective s hperm⟩
  rw [adjust_get, nibbleSwap_toNat]

/-- Settles O14: the lane's difference in 9 bits is R52's number (`subLane_toNat`). -/
theorem subtractWrapsInEachLane : Obligations.SubtractWrapsInEachLane := by
  intro s f rotated hperm hf hrotated
  refine ⟨subtract s.adj rotated, fun i => ?_, ?_⟩
  · rw [subtract_get, subLane_toNat]
  · rw [exec_subtract_of_bijective s hperm, State.stageSubtract_of_rotated hf hrotated]

/-- Running a row that answers a next state, and then the rest. -/
theorem execAll_cons_of_next {i : Instr} {s t : State} (h : exec i s = .next t) (rest : List Instr) :
    execAll (i :: rest) s = execAll rest t := by
  rw [execAll, h]

/-- The five rows in order leave what DEOBFUSCATE's stages leave: no stage writes the configuration, so each row's
guard passes (R53). -/
theorem execAll_deobfuscator_rows {s : State} (hperm : permBijective s.cfg.perm = true) :
    execAll [.permute, .xorkey, .rotate, .adjust, .subtract] s = .next s.stageDeobfuscate := by
  rw [execAll_cons_of_next (exec_permute_of_bijective s hperm),
    execAll_cons_of_next (exec_xorkey_of_bijective s.stagePermute hperm),
    execAll_cons_of_next (exec_rotate_of_bijective s.stagePermute.stageXorkey hperm),
    execAll_cons_of_next (exec_adjust_of_bijective s.stagePermute.stageXorkey.stageRotate hperm),
    execAll_cons_of_next (exec_subtract_of_bijective s.stagePermute.stageXorkey.stageRotate.stageAdjust hperm)]
  rfl

/-- What the five stages leave of a transaction in flight: each stage's value from the one before (R53). -/
theorem State.stageDeobfuscate_of_flight {s : State} {f : Flight} (hf : s.flight = some f) :
    s.stageDeobfuscate = { s with
      adj := adjust s.cfg.cstate
      flight := some { f with
        inter := some (permute s.cfg.perm f.raw)
        xored := some (xorKey s.cfg.key (permute s.cfg.perm f.raw))
        rotated := some (rotate (xorKey s.cfg.key (permute s.cfg.perm f.raw)))
        out := some (subtract (adjust s.cfg.cstate) (rotate (xorKey s.cfg.key (permute s.cfg.perm f.raw)))) } } := by
  rw [State.stageDeobfuscate, State.stagePermute_of_flight hf, State.stageXorkey_of_inter rfl rfl,
    State.stageRotate_of_xored rfl rfl, State.stageAdjust, State.stageSubtract_of_rotated rfl rfl]
  rfl

/-- Settles O15: the rows in order and DEOBFUSCATE both answer the five stages, whose values are
`stageDeobfuscate_of_flight`'s. -/
theorem deobfuscateRunsItsStagesInOrder : Obligations.DeobfuscateRunsItsStagesInOrder := by
  intro s f hperm hf
  refine ⟨?_, ?_⟩
  · rw [execAll_deobfuscator_rows hperm, exec_deobfuscate_of_bijective s hperm]
  · rw [exec_deobfuscate_of_bijective s hperm, State.stageDeobfuscate_of_flight hf]

end Sys2Proof.Machine
end

