-- ==== Sys2Proof/Proofs/Checksum.lean ====
section
/-! SUPPORT. The validator's values as numbers and whole-byte comparisons, and its rows on a transaction in flight
(41_checksum R57 to R59). -/

namespace Sys2Proof.Machine

/-! The values. -/

/-- The checksum byte on natural numbers (R57). -/
theorem checksum_toNat (out : Lanes Byte) :
    (checksum out).toNat = (out.l0.toNat + out.l1.toNat + out.l2.toNat) % 256 := by
  rw [checksum_eq, BitVec.toNat_add, BitVec.toNat_add, Nat.mod_add_mod]

/-- The terminator's check as an equation of bytes (R58). -/
theorem termOk_eq_decide (out : Lanes Byte) : termOk out = decide (out.l4 = 0x0D) := rfl

/-- The sum's check as an equation of bytes (R59). -/
theorem sumOk_eq_decide (sum : Byte) (out : Lanes Byte) : sumOk sum out = decide (sum = out.l3) := rfl

/-! Each stage on a transaction in flight whose inputs are evaluated. -/

section
variable {s : State} {f : Flight} {out : Lanes Byte} (hf : s.flight = some f) (hout : f.out = some out)
include hf hout

theorem State.stageSum_of_out : s.stageSum = { s with flight := some { f with sum := some (checksum out) } } := by
  rw [State.stageSum, onFlight_some s _ f hf, hout]
  rfl

theorem State.stageTermOk_of_out :
    s.stageTermOk = { s with flight := some { f with termOk := some (termOk out) } } := by
  rw [State.stageTermOk, onFlight_some s _ f hf, hout]
  rfl

theorem State.stageSumOk_of_sum {sum : Byte} (hsum : f.sum = some sum) :
    s.stageSumOk = { s with flight := some { f with sumOk := some (sumOk sum out) } } := by
  rw [State.stageSumOk, onFlight_some s _ f hf, hsum, hout]
  rfl

end

/-! The rows with an accepted configuration. -/

section
variable (s : State) (h : permBijective s.cfg.perm = true)
include h

theorem exec_sum_of_bijective : exec .sum s = .next s.stageSum := guarded_of_bijective s _ h
theorem exec_termOk_of_bijective : exec .termOk s = .next s.stageTermOk := guarded_of_bijective s _ h
theorem exec_sumOk_of_bijective : exec .sumOk s = .next s.stageSumOk := guarded_of_bijective s _ h

end

/-- Settles O18: SUM writes the checksum byte, which is R57's number (`checksum_toNat`). -/
theorem sumIsTheFirstThreeBytesModulo256 : Obligations.SumIsTheFirstThreeBytesModulo256 := by
  intro s f out hperm hf hout
  refine ⟨checksum out, checksum_toNat out, ?_⟩
  rw [exec_sum_of_bijective s hperm, State.stageSum_of_out hf hout]

/-- Settles O19: each row writes its flag, and the flag is an equation of whole bytes (`termOk_eq_decide`,
`sumOk_eq_decide`). -/
theorem checkFlagsCompareWholeBytes : Obligations.CheckFlagsCompareWholeBytes := by
  intro s f out hperm hf hout
  refine ⟨?_, fun sum hsum => ?_⟩
  · rw [exec_termOk_of_bijective s hperm, State.stageTermOk_of_out hf hout, termOk_eq_decide]
  · rw [exec_sumOk_of_bijective s hperm, State.stageSumOk_of_sum hf hout hsum, sumOk_eq_decide]

end Sys2Proof.Machine
end

