-- ==== Sys2Proof/Proofs/FrameDecoder.lean ====
section
/-! SUPPORT. The payload as a number, the decode result by the opcode byte, and the rows of the frame decoder on an
accepted configuration (42_frame_decoder R63 to R67). -/

namespace Sys2Proof.Machine

/-! The payload, and the bytes of a valid frame. -/

/-- The payload is its two bytes side by side, the high one first (30_encoding R38). -/
theorem payload_eq_append (out : Lanes Byte) : payload out = out.l1 ++ out.l2 := by
  rw [payload, BitVec.append_def, BitVec.shiftLeftZeroExtend_eq, BitVec.setWidth'_eq]

/-- The payload on natural numbers: the low byte lies below the shifted high byte (30_encoding R38). -/
theorem payload_toNat (out : Lanes Byte) : (payload out).toNat = out.l1.toNat * 256 + out.l2.toNat := by
  rw [payload_eq_append, BitVec.toNat_append, ← Nat.shiftLeft_add_eq_or_of_lt out.l2.isLt, Nat.shiftLeft_eq]

/-- The two payload bytes of a valid frame are the payload's (30_encoding R37, R38). -/
@[simp] theorem payload_validFrame (op : Byte) (p : BitVec 16) (r5 r6 r7 : Byte) :
    payload (validFrame op p r5 r6 r7) = p := by
  rw [payload_eq_append]
  exact BitVec.extractLsb'_append_extractLsb'

/-- The eight bytes of a valid frame: opcode, payload big-endian, checksum, terminator and reserved bytes
(30_encoding R37, R40). -/
theorem validFrame_bytes {op : Byte} {p : BitVec 16} {r5 r6 r7 : Byte} {out : Lanes Byte}
    (hout : out = validFrame op p r5 r6 r7) :
    out.l0 = op ∧ out.l1.toNat * 256 + out.l2.toNat = p.toNat ∧ out.l3 = out.l0 + out.l1 + out.l2 ∧
      out.l4 = 0x0D ∧ out.l5 = r5 ∧ out.l6 = r6 ∧ out.l7 = r7 := by
  have hpayload : out.l1.toNat * 256 + out.l2.toNat = p.toNat := by
    rw [← payload_toNat, hout, payload_validFrame]
  subst hout
  exact ⟨rfl, hpayload, rfl, rfl, rfl, rfl, rfl⟩

/-! DISPATCH (R63). -/

/-- The decode result as a choice on the opcode byte (R63). -/
theorem decodeReading_eq_ite (mode : TempEval) (out : Lanes Byte) :
    decodeReading mode out =
      if out.l0 = 0x50 then some (.co2 (payload out))
      else if out.l0 = 0x42 then some (.temperature (tempC mode (payload out))) else none := rfl

/-- DISPATCH's stage on a transaction in flight whose DecryptedFrame is evaluated. -/
theorem State.stageDispatch_of_out {s : State} {f : Flight} {out : Lanes Byte} (hf : s.flight = some f)
    (hout : f.out = some out) :
    s.stageDispatch = { s with flight := some { f with decoded := some (decodeReading s.cfg.tempEval out) } } := by
  rw [State.stageDispatch, onFlight_some s _ f hf, hout]
  rfl

/-! The rows with an accepted configuration. -/

section
variable (s : State) (h : permBijective s.cfg.perm = true)
include h

theorem exec_dispatch_of_bijective : exec .dispatch s = .next s.stageDispatch := guarded_of_bijective s _ h

theorem exec_co2_of_bijective (p : BitVec 16) (r5 r6 r7 : Byte) :
    exec (.co2 p r5 r6 r7) s = .next (s.pathCo2 p r5 r6 r7) :=
  guarded_of_bijective s _ h

theorem exec_temp_of_bijective (p : BitVec 16) (r5 r6 r7 : Byte) :
    exec (.temp p r5 r6 r7) s = .next (s.pathTemp p r5 r6 r7) :=
  guarded_of_bijective s _ h

theorem exec_noread_of_bijective (op : Byte) (p : BitVec 16) (r5 r6 r7 : Byte) :
    exec (.noread op p r5 r6 r7) s = .next (s.pathNoread op p r5 r6 r7) :=
  guarded_of_bijective s _ h

end

/-! What each verdict row latches. -/

@[simp] theorem State.pathCo2_res (s : State) (p : BitVec 16) (r5 r6 r7 : Byte) :
    (s.pathCo2 p r5 r6 r7).res = .reading (word64 (validFrame opCo2 p r5 r6 r7)) p (.co2 p) :=
  latch_res s _

@[simp] theorem State.pathTemp_res (s : State) (p : BitVec 16) (r5 r6 r7 : Byte) :
    (s.pathTemp p r5 r6 r7).res =
      .reading (word64 (validFrame opTemp p r5 r6 r7)) p (.temperature (tempC s.cfg.tempEval p)) :=
  latch_res s _

@[simp] theorem State.pathNoread_res (s : State) (op : Byte) (p : BitVec 16) (r5 r6 r7 : Byte) :
    (s.pathNoread op p r5 r6 r7).res = .discardUnrecognized (word64 (validFrame op p r5 r6 r7)) p :=
  latch_res s _

/-- After a verdict is latched the unit is ready for the next frame (10_state R14). -/
@[simp] theorem latch_inReady (s : State) (r : Res) : (s.latch r).inReady = true := rfl

/-- Settles O21: DISPATCH writes the decode result, a choice on the opcode byte (`decodeReading_eq_ite`) with the payload
of `payload_toNat`. -/
theorem dispatchSelectsByTheOpcode : Obligations.DispatchSelectsByTheOpcode := by
  intro s f out hperm hf hout
  refine ⟨payload out, payload_toNat out, ?_⟩
  rw [exec_dispatch_of_bijective s hperm, State.stageDispatch_of_out hf hout, decodeReading_eq_ite]

/-- Settles O22: the CO2 row latches the valid frame with opcode 0x50 (`validFrame_bytes`) and its payload. -/
theorem co2RowLatchesThePayload : Obligations.Co2RowLatchesThePayload := by
  intro s p r5 r6 r7 hperm
  exact ⟨validFrame opCo2 p r5 r6 r7, s.pathCo2 p r5 r6 r7, validFrame_bytes rfl,
    exec_co2_of_bijective s hperm p r5 r6 r7, State.pathCo2_res s p r5 r6 r7, latch_inReady s _⟩

/-- Settles O23: the TEMP row latches the valid frame with opcode 0x42 (`validFrame_bytes`) and its converted payload. -/
theorem tempRowLatchesTheConversion : Obligations.TempRowLatchesTheConversion := by
  intro s p r5 r6 r7 hperm
  exact ⟨validFrame opTemp p r5 r6 r7, s.pathTemp p r5 r6 r7, validFrame_bytes rfl,
    exec_temp_of_bijective s hperm p r5 r6 r7, State.pathTemp_res s p r5 r6 r7, latch_inReady s _⟩

/-- Settles O24: the NOREAD row latches its frame and no reading. Its meaning does not ask that the opcode is none of the
two recognised ones: the decoder presents the row with no other (`classify_cases`). -/
theorem noreadRowLatchesNoReading : Obligations.NoreadRowLatchesNoReading := by
  intro s op p r5 r6 r7 hperm _ _
  have hres := State.pathNoread_res s op p r5 r6 r7
  exact ⟨validFrame op p r5 r6 r7, s.pathNoread op p r5 r6 r7, validFrame_bytes rfl,
    exec_noread_of_bijective s hperm op p r5 r6 r7, hres, congrArg Res.kind hres, latch_inReady s _⟩

end Sys2Proof.Machine
end

