-- ==== Sys2Proof/Proofs/FrameTransaction.lean ====
section
/-! SUPPORT. The verdict of a DecryptedFrame as conditions on its bytes, and what a transaction leaves
(43_frame_transaction R69). -/

namespace Sys2Proof.Machine

/-- The verdict of a DecryptedFrame by its bytes: validation first (`valid_iff`), then the opcode
(`decodeReading_eq_ite`; 43_frame_transaction R69). -/
theorem resultOf_eq_ite (mode : TempEval) (out : Lanes Byte) :
    resultOf mode out =
      if out.l4 = 0x0D ∧ out.l0 + out.l1 + out.l2 = out.l3 then
        if out.l0 = 0x50 then .reading (word64 out) (payload out) (.co2 (payload out))
        else if out.l0 = 0x42 then .reading (word64 out) (payload out) (.temperature (tempC mode (payload out)))
        else .discardUnrecognized (word64 out) (payload out)
      else .discardChecksum (decide (out.l4 = 0x0D)) (decide (out.l0 + out.l1 + out.l2 = out.l3)) (word64 out)
        (payload out) := by
  have hbytes : valid out = true ↔ out.l4 = 0x0D ∧ out.l0 + out.l1 + out.l2 = out.l3 := valid_iff out
  by_cases hv : valid out = true
  · rw [if_pos (hbytes.1 hv), resultOf, if_pos hv, decodeReading_eq_ite]
    split_ifs <;> rfl
  · rw [if_neg (mt hbytes.2 hv), resultOf, if_neg hv, termOk_eq_decide, sumOk_eq_decide, checksum_eq]

/-- A transaction leaves the unit ready for the next frame (10_state R14). -/
@[simp] theorem State.transact_inReady (s : State) (w : BitVec 64) : (s.transact w).inReady = true := by
  rw [transact_eq, latch_inReady]

/-- Settles O29: FRAME latches `resultOf` of its deobfuscated frame (`State.transact_res`), which is R69's choice on the
frame's bytes (`resultOf_eq_ite`). -/
theorem frameLatchesTheVerdictOfItsFrame : Obligations.FrameLatchesTheVerdictOfItsFrame := by
  intro s w hperm out
  refine ⟨payload out, s.transact w, payload_toNat out, execFrame_of_bijective hperm w, State.transact_inReady s w,
    State.transact_cfg s w, ?_⟩
  rw [State.transact_res, resultOf_eq_ite]

end Sys2Proof.Machine
end

