-- ==== Sys2Proof/Proofs/BadFrame.lean ====
section
/-! SUPPORT. The BADFRAME row on an accepted configuration, and what it latches (60_exceptions R77, R80). -/

namespace Sys2Proof.Machine

theorem exec_badframe_of_bijective (s : State) (h : permBijective s.cfg.perm = true) (out : Lanes Byte) :
    exec (.badframe out) s = .next (s.pathBadframe out) :=
  guarded_of_bijective s _ h

/-- What the BADFRAME row latches, with each sub-cause as an equation of the frame's bytes (R77, R80). -/
theorem State.pathBadframe_res (s : State) (out : Lanes Byte) :
    (s.pathBadframe out).res =
      .discardChecksum (decide (out.l4 = 0x0D)) (decide (out.l0 + out.l1 + out.l2 = out.l3)) (word64 out)
        (payload out) := by
  rw [State.pathBadframe, latch_res, termOk_eq_decide, sumOk_eq_decide, checksum_eq]

/-- Settles O25: the BADFRAME row latches its frame with both sub-causes (`State.pathBadframe_res`). Its meaning does not
ask that the frame fails validation: the decoder presents the row with no other (`classify_cases`). -/
theorem badframeRowRecordsBothCauses : Obligations.BadframeRowRecordsBothCauses := by
  intro s out hperm _
  have hres := State.pathBadframe_res s out
  exact ⟨payload out, s.pathBadframe out, payload_toNat out, exec_badframe_of_bijective s hperm out, hres,
    congrArg Res.kind hres, latch_inReady s _⟩

end Sys2Proof.Machine
end

