-- ==== Sys2Proof/Proofs/Reset.lean ====
section
/-! SUPPORT. RESET field by field, the empty latch, and the unit built with any tables (70_reset_and_hazards R94 to
R96). -/

namespace Sys2Proof.Machine

/-- RESET is refused in no state and for no configuration (R94). -/
theorem exec_reset (s : State) : exec .reset s = .next s.doReset := rfl

@[simp] theorem State.doReset_adj (s : State) : s.doReset.adj = s.adj := rfl
@[simp] theorem State.doReset_flight (s : State) : s.doReset.flight = none := rfl
@[simp] theorem State.doReset_res (s : State) : s.doReset.res = .empty := rfl
@[simp] theorem State.doReset_stream (s : State) : s.doReset.host.stream = s.host.stream := rfl
@[simp] theorem State.doReset_reports (s : State) : s.doReset.host.reports = s.host.reports := rfl

/-- A unit with nothing in flight is ready for a frame (10_state R14). -/
theorem State.inReady_of_idle {s : State} (h : s.flight = none) : s.inReady = true := by
  rw [State.inReady, h, Option.isNone_none]

/-- KEY_OUT shows the configuration's key and nothing else of the unit (10_state R14). -/
theorem State.keyOut_eq_of_cfg_eq {s t : State} (h : t.cfg = s.cfg) : t.keyOut = s.keyOut :=
  congrArg (fun c : Config => word64 c.key) h

/-- A read of a field outside R17's table gives the fault of that field (10_state R18). -/
theorem Res.read_of_not_mem_definedFields {r : Res} {f : ResField}
    (h : f ∉ definedFields r.verdict (r.kind.getD .none)) : r.read f = .error (.undefinedResultRead f) := by
  have hbits : r.bits f = none := by
    rw [← Option.not_isSome_iff_eq_none, Res.bits_isSome, decide_eq_true_iff]
    exact h
  rw [Res.read, hbits]

/-- The empty latch defines its verdict only (R94). -/
theorem Res.read_empty {f : ResField} (h : f ≠ .verdict) : Res.empty.read f = .error (.undefinedResultRead f) :=
  Res.read_of_not_mem_definedFields (List.mem_singleton.not.2 h)

/-- Settles O35: RESET answers `doReset` in every state, and each clause is one of its fields. -/
theorem resetEmptiesTheLatch : Obligations.ResetEmptiesTheLatch := by
  intro s
  have hcfg : s.doReset.cfg = s.cfg := State.doReset_cfg s
  have hres : s.doReset.res = .empty := State.doReset_res s
  exact ⟨s.doReset, exec_reset s, hres, State.inReady_of_idle (State.doReset_flight s), hcfg, State.doReset_adj s,
    State.doReset_stream s, State.doReset_reports s, State.keyOut_eq_of_cfg_eq hcfg,
    congrArg (fun r : Res => r.verdict.code) hres, fun _ => Res.read_empty⟩

/-- Settles O36: the power-on state has the latch and the flight that RESET writes, and RESET keeps its tables. -/
theorem powerOnIsTheResetState : Obligations.PowerOnIsTheResetState := by
  refine ⟨rfl, fun c => ?_⟩
  have hidle : (State.powerOn c).flight = none := State.powerOn_flight c
  have hres : (State.powerOn c).res = .empty := State.powerOn_res c
  exact ⟨congrArg Res.verdict hres, hidle, State.inReady_of_idle hidle, fun _ => Res.read_empty,
    (State.powerOn c).doReset, exec_reset _, State.doReset_cfg _, State.doReset_adj _,
    (State.doReset_flight _).trans hidle.symm, (State.doReset_res _).trans hres.symm⟩

/-- What RESET answers has the tables it found, the derived one among them (R95). -/
theorem exec_reset_keeps_tables {s t : State} (h : exec .reset s = .next t) : t.cfg = s.cfg ∧ t.adj = s.adj := by
  cases (exec_reset s).symm.trans h
  exact ⟨State.doReset_cfg s, State.doReset_adj s⟩

/-- Settles O58: RESET keeps the tables (`exec_reset_keeps_tables`), and the machine built with any tables starts in
their power-on state, for the default instance that of `core` (log entry 1). -/
theorem otherTablesStartInTheResetState : Obligations.OtherTablesStartInTheResetState := by
  refine ⟨fun s t h => ?_, fun c => ?_, rfl⟩
  · obtain ⟨hcfg, hadj⟩ := exec_reset_keeps_tables h
    rw [hcfg]
    exact ⟨rfl, rfl, rfl, hadj⟩
  · exact ⟨rfl, State.powerOn_cfg c, State.powerOn_adj c, State.powerOn_res c,
      State.inReady_of_idle (State.powerOn_flight c)⟩

end Sys2Proof.Machine
end

