-- ==== Sys2Proof/Proofs/RoundTrip.lean ====
section
/-! SUPPORT. Encoding and decoding are inverse: the fields of a valid frame are read back, the opcode map names the
class a frame was built for, and each port's word decodes to its instruction (30_encoding R36 to R45). -/

namespace Sys2Proof

open Sys2Proof.Machine

/-! The opcode map on the frames of each row (30_encoding R39, R40). -/

@[simp] theorem opcode_validFrame (op : Byte) (p : BitVec 16) (r5 r6 r7 : Byte) :
    opcode (validFrame op p r5 r6 r7) = op := rfl

/-- A valid frame carries its terminator and its own sum. -/
@[simp] theorem valid_validFrame (op : Byte) (p : BitVec 16) (r5 r6 r7 : Byte) :
    valid (validFrame op p r5 r6 r7) = true :=
  (valid_iff _).2 ⟨rfl, rfl⟩

theorem classify_validFrame_opCo2 (p : BitVec 16) (r5 r6 r7 : Byte) :
    classify (validFrame opCo2 p r5 r6 r7) = .co2 p r5 r6 r7 := by
  rw [classify, if_pos (valid_validFrame ..), if_pos (opcode_validFrame ..), payload_validFrame]
  rfl

theorem classify_validFrame_opTemp (p : BitVec 16) (r5 r6 r7 : Byte) :
    classify (validFrame opTemp p r5 r6 r7) = .temp p r5 r6 r7 := by
  have hne : ¬ opcode (validFrame opTemp p r5 r6 r7) = opCo2 := by rw [opcode_validFrame]; decide
  rw [classify, if_pos (valid_validFrame ..), if_neg hne, if_pos (opcode_validFrame ..), payload_validFrame]
  rfl

theorem classify_validFrame_of_unrecognized {op : Byte} (h : unrecognized op = true) (p : BitVec 16)
    (r5 r6 r7 : Byte) : classify (validFrame op p r5 r6 r7) = .noread op p r5 r6 r7 := by
  obtain ⟨hnotCo2, hnotTemp⟩ : op ≠ opCo2 ∧ op ≠ opTemp := by simpa [unrecognized] using h
  rw [classify, if_pos (valid_validFrame ..), opcode_validFrame, if_neg hnotCo2, if_neg hnotTemp, payload_validFrame]
  rfl

theorem classify_of_invalid {out : Lanes Byte} (h : valid out = false) : classify out = .badframe out := by
  simp [classify, h]

/-! The word of eight bytes at each frame port. -/

@[simp] theorem decode_out (out : Lanes Byte) : decode ⟨.out, out.toList⟩ = .ok (classify out) := rfl

@[simp] theorem decode_frameIn (raw : Lanes Byte) : decode ⟨.frameIn, raw.toList⟩ = .ok (.frame (word64 raw)) := rfl

@[simp] theorem decode_plain (plain : Lanes Byte) : decode ⟨.plain, plain.toList⟩ = .ok (.framePlain (word64 plain)) :=
  rfl

/-- Settles O1, row by row: a DecryptedFrame row's word is its frame, whose class is the row; the word of FRAME and of
FRAME.PLAIN packs back to its operand (`word64_bytes8`); a control word is one fixed byte; a datapath row has none. -/
theorem decodeOfEncodeIsTheInstruction : Obligations.DecodeOfEncodeIsTheInstruction := by
  intro i l hwf henc
  cases i with
  | co2 p r5 r6 r7 => cases henc; rw [decode_out, classify_validFrame_opCo2]
  | temp p r5 r6 r7 => cases henc; rw [decode_out, classify_validFrame_opTemp]
  | noread op p r5 r6 r7 => cases henc; rw [decode_out, classify_validFrame_of_unrecognized hwf]
  | badframe out =>
    cases henc
    have hinvalid : valid out = false := by simpa [Instr.wellFormed] using hwf
    rw [decode_out, classify_of_invalid hinvalid]
  | frame w => cases henc; rw [decode_frameIn, word64_bytes8]
  | framePlain w => cases henc; rw [decode_plain, word64_bytes8]
  | reset | handshake | yield => cases henc; rfl
  | permute | xorkey | rotate | adjust | subtract | deobfuscate | sum | termOk | sumOk | valid | dispatch => cases henc

/-- The opcode map answers a well-formed instruction whose frame is the one it was given: a valid frame is built again
from its opcode, payload and reserved bytes (`validFrame_of_valid`). -/
theorem classify_wellFormed_encode (out : Lanes Byte) :
    (classify out).wellFormed = true ∧ encode (classify out) = some ⟨.out, out.toList⟩ := by
  obtain ⟨hv, hc⟩ | ⟨hv, hop, hc⟩ | ⟨hv, hop, hc⟩ | ⟨hv, hop, hc⟩ := classify_cases out
  · simp [hc, Instr.wellFormed, hv, encode]
  · rw [hc, encode, ← hop, validFrame_of_valid out hv]
    exact ⟨rfl, rfl⟩
  · rw [hc, encode, ← hop, validFrame_of_valid out hv]
    exact ⟨rfl, rfl⟩
  · rw [hc, encode, validFrame_of_valid out hv]
    exact ⟨hop, rfl⟩

/-- Settles O2, over the answers of `decode_cases`: eight packed bytes unpack to themselves (`bytes8_word64`), and a
DecryptedFrame's class has the frame's word (`classify_wellFormed_encode`). -/
theorem encodeOfDecodeIsTheWord : Obligations.EncodeOfDecodeIsTheWord := by
  intro l i hdec
  obtain ⟨raw, rfl, rfl⟩ | ⟨plain, rfl, rfl⟩ | ⟨out, rfl, rfl⟩ | ⟨rfl, rfl⟩ | ⟨rfl, rfl⟩ | ⟨rfl, rfl⟩ :=
    decode_cases hdec
  · exact ⟨rfl, by rw [encode, bytes8_word64]⟩
  · exact ⟨rfl, by rw [encode, bytes8_word64]⟩
  · exact classify_wellFormed_encode out
  · exact ⟨rfl, rfl⟩
  · exact ⟨rfl, rfl⟩
  · exact ⟨rfl, rfl⟩

end Sys2Proof
end

