-- ==== Sys2Proof/Proofs/Words.lean ====
section
/-! SUPPORT. The spec's own words, the packed word bit by bit and digit by digit, and the script lines that write one
(20_memory R24, 30_encoding R45, 40_deobfuscator stage R). -/

namespace Sys2Proof

open Sys2Proof.Machine

/-- Settles O4: each is the word of the well-formed instruction it stands for (`decodeOfEncodeIsTheInstruction`). -/
theorem wordsOfTheSpecDecode : Obligations.WordsOfTheSpecDecode :=
  ⟨decodeOfEncodeIsTheInstruction (.co2 0x03F5 0xAA 0x55 0xFF) _ rfl (by decide),
    decodeOfEncodeIsTheInstruction (.temp 0x111F 0 0 0) _ rfl (by decide),
    decodeOfEncodeIsTheInstruction (.noread 0x6E 0x60A0 0 0 0) _ (by decide) (by decide),
    decodeOfEncodeIsTheInstruction (.badframe ⟨0x51, 0x03, 0xF5, 0x48, 0x0D, 0, 0, 0⟩) _ (by decide) rfl,
    decodeOfEncodeIsTheInstruction (.frame 0x98E466209446BF62) _ rfl (by decide),
    decodeOfEncodeIsTheInstruction .reset _ rfl rfl⟩

end Sys2Proof

namespace Sys2Proof.Machine

/-! The packed word by its bits (20_memory R24). -/

/-- Byte `j` of a word stands in the bits from `8 * (7 - j)` up (40_deobfuscator R46). -/
theorem bytes8_get (w : BitVec 64) (j : Fin 8) : (bytes8 w).get j = w.extractLsb' (8 * (7 - j.val)) 8 := by
  fin_cases j <;> rfl

/-- Packing puts byte `j` there (20_memory R24). -/
theorem getLsbD_word64 (a : Lanes Byte) (j : Fin 8) {k : Nat} (hk : k < 8) :
    (word64 a).getLsbD (8 * (7 - j.val) + k) = (a.get j).getLsbD k := by
  have hbyte : a.get j = (word64 a).extractLsb' (8 * (7 - j.val)) 8 := by rw [← bytes8_get, bytes8_word64]
  rw [hbyte, BitVec.getLsbD_extractLsb', decide_eq_true hk, Bool.true_and]

/-- A rotated lane takes its low five bits from its own byte and its high three from the byte before (R49). -/
theorem getLsbD_rotateLane (cur prev : Byte) {k : Nat} (hk : k < 8) :
    (rotateLane cur prev).getLsbD k = if k < 5 then cur.getLsbD (k + 3) else prev.getLsbD (k - 5) := by
  interval_cases k <;> simp [rotateLane]

/-- A right rotation of a 64-bit word reads three places up, cyclically. -/
theorem getLsbD_rotateRight_three (w : BitVec 64) {i : Nat} (hi : i < 64) :
    (w.rotateRight 3).getLsbD i = w.getLsbD ((i + 3) % 64) := by
  rw [BitVec.getLsbD_rotateRight]
  by_cases hlow : i < 61
  · simp [hlow, Nat.mod_eq_of_lt (show i + 3 < 64 by omega), add_comm]
  · simp [hlow, hi, show (i + 3) % 64 = i - 61 by omega]

/-- Settles O12, bit by bit: bit `k` of lane `j` is bit `k + 3` of the same lane or, past its end, bit `k - 5` of the
lane before, and both stand three places up in the packed word, cyclically. -/
theorem rotateIsRor64ByThree : Obligations.RotateIsRor64ByThree := by
  intro xored
  apply BitVec.eq_of_getLsbD_eq
  intro i hi
  obtain ⟨j, k, hk, rfl⟩ : ∃ (j : Fin 8) (k : Nat), k < 8 ∧ i = 8 * (7 - j.val) + k :=
    ⟨⟨7 - i / 8, by omega⟩, i % 8, by omega, by simp only; omega⟩
  rw [getLsbD_word64 _ j hk, rotate_get, getLsbD_rotateLane _ _ hk, getLsbD_rotateRight_three _ hi]
  by_cases hk5 : k < 5
  · rw [if_pos hk5, ← getLsbD_word64 xored j (by omega)]
    congr 1
    omega
  · rw [if_neg hk5, ← getLsbD_word64 xored (j + 7) (by omega)]
    congr 1
    omega

/-! The packed word by its digits. -/

/-- The number that bytes write in base 256, most significant first, after `acc`. -/
def bytesNumber (acc : Nat) (bytes : List Byte) : Nat := bytes.foldl (fun n b => 256 * n + b.toNat) acc

/-- The bits from `k` up are those from `k + 8` up and one byte. -/
theorem mul_div_add_div_mod (n k : Nat) : 256 * (n / 2 ^ (k + 8)) + n / 2 ^ k % 2 ^ 8 = n / 2 ^ k := by
  rw [pow_add, ← Nat.div_div_eq_div_mul]
  exact Nat.div_add_mod _ _

/-- The bytes of a word write the word (20_memory R24, 40_deobfuscator R46). -/
theorem bytesNumber_bytes8 (w : BitVec 64) : bytesNumber 0 (bytes8 w).toList = w.toNat := by
  have htop : 256 * 0 + w.toNat / 2 ^ 56 % 2 ^ 8 = w.toNat / 2 ^ 56 := by
    have hlt := w.isLt
    omega
  simp only [bytesNumber, bytes8, Lanes.toList, List.foldl, BitVec.extractLsb'_toNat, Nat.shiftRight_eq_div_pow]
  rw [htop, mul_div_add_div_mod _ 48, mul_div_add_div_mod _ 40, mul_div_add_div_mod _ 32,
    mul_div_add_div_mod _ 24, mul_div_add_div_mod _ 16, mul_div_add_div_mod _ 8, mul_div_add_div_mod _ 0, pow_zero,
    Nat.div_one]

/-- A byte's two digits write the byte (30_encoding R45). -/
theorem hexNumber_hexByte_append (acc : Nat) (b : Byte) (text : List Char) :
    hexNumber acc (hexByte b ++ text) = hexNumber (256 * acc + b.toNat) text := by
  have hb : b.toNat = 16 * (b.extractLsb' 4 4).toNat + (b.extractLsb' 0 4).toNat := by
    simp only [BitVec.extractLsb'_toNat, Nat.shiftRight_eq_div_pow]
    omega
  simp only [hexByte, List.cons_append, List.nil_append, hexNumber, hexValue_hexDigit]
  congr 1
  omega

/-- The digits of bytes write the number of the bytes. -/
theorem hexNumber_flatMap_hexByte (acc : Nat) (bytes : List Byte) :
    hexNumber acc (bytes.flatMap hexByte) = some (bytesNumber acc bytes) := by
  induction bytes generalizing acc with
  | nil => rfl
  | cons b bytes ih => rw [List.flatMap_cons, hexNumber_hexByte_append, ih]; rfl

/-- The operand written for a value is read back as that value (30_encoding R45). -/
@[simp] theorem hexOperand_hexWord (w : BitVec 64) : hexOperand (hexWord w) = some w := by
  have hlength : ((bytes8 w).toList.flatMap hexByte).length = 16 := rfl
  have hnumber : hexNumber 0 ((bytes8 w).toList.flatMap hexByte) = some w.toNat := by
    rw [hexNumber_flatMap_hexByte, bytesNumber_bytes8]
  simp [hexWord, hexOperand, hlength, hnumber]

/-- Settles O5: the keyword parts the two lines and no other form fits (`keyword_ne`, `afterKeyword_framePlain_frame`),
and the operand reads back (`hexOperand_hexWord`). -/
theorem scriptLinesReadBack : Obligations.ScriptLinesReadBack := by
  intro w
  obtain ⟨hframeReset, hframeHandshake, hplainReset, hplainHandshake⟩ := keyword_ne (hexWord w)
  constructor
  · rw [assemble, if_neg hframeReset, if_neg hframeHandshake, afterKeyword_framePlain_frame, afterKeyword_append]
    simp
  · rw [assemble, if_neg hplainReset, if_neg hplainHandshake, afterKeyword_append]
    simp

end Sys2Proof.Machine
end

