-- ==== Sys2Proof/Proofs/Bijectivity.lean ====
section
/-! SUPPORT. The check of PERM as bijectivity, what it refuses, and the inverse of `deobfuscate`, stage by stage
(00_scope R3, 60_exceptions R83, 40_deobfuscator R55, R56). -/

namespace Sys2Proof

/-- Two arrays with the same entries are the same. -/
theorem Lanes.ext_get {α : Type} {a b : Lanes α} (h : ∀ i, a.get i = b.get i) : a = b := by
  have hlist : a.toList = b.toList := by
    rw [← Lanes.map_get_finRange, ← Lanes.map_get_finRange, funext h]
  cases a
  cases b
  simpa [Lanes.toList] using hlist

end Sys2Proof

namespace Sys2Proof.Machine

/-- Settles O6: the check says that every index is an entry (`permBijective_iff_surjective`), and on the finite set 0..7
a surjection is a bijection. -/
theorem permutationCheckIsBijectivity : Obligations.PermutationCheckIsBijectivity :=
  fun perm => (permBijective_iff_surjective perm).trans Finite.surjective_iff_bijective

/-- Settles O7: every row but the three host rows is guarded, and the guard refuses (`guarded_of_not_bijective`). -/
theorem invalidPermutationIsRefused : Obligations.InvalidPermutationIsRefused := by
  intro s hnot i hreset hhandshake hyield
  have hperm : permBijective s.cfg.perm = false :=
    Bool.eq_false_iff.2 (mt (permutationCheckIsBijectivity s.cfg.perm).1 hnot)
  cases i with
  | reset => exact absurd rfl hreset
  | handshake => exact absurd rfl hhandshake
  | yield => exact absurd rfl hyield
  | _ => exact guarded_of_not_bijective s _ hperm

/-! OBF's four lines as stages of their own (40_deobfuscator R56). -/

/-- `ROTATED[i] = (OUT[i] + ADJ[i]) & 0xFF`. -/
def unsubtract (adj out : Lanes Byte) : Lanes Byte := Lanes.ofFn fun i => out.get i + adj.get i

/-- `XORED[i] = ((ROTATED[i] << 3) | (ROTATED[(i + 1) mod 8] >> 5)) & 0xFF`. -/
def unrotate (rotated : Lanes Byte) : Lanes Byte :=
  Lanes.ofFn fun i => unrotateLane (rotated.get i) (rotated.get (i + 1))

/-- `RAW[i] = INTER[PERM[i]]`. -/
def unpermute (perm : Lanes (Fin 8)) (inter : Lanes Byte) : Lanes Byte := Lanes.ofFn fun i => inter.get (perm.get i)

theorem obfuscate_eq (cfg : Config) (out : Lanes Byte) :
    obfuscate cfg out = unpermute cfg.perm (xorKey cfg.key (unrotate (unsubtract (adjust cfg.cstate) out))) := rfl

@[simp] theorem unsubtract_get (adj out : Lanes Byte) (i : Fin 8) :
    (unsubtract adj out).get i = out.get i + adj.get i :=
  Lanes.get_ofFn _ i

@[simp] theorem unrotate_get (rotated : Lanes Byte) (i : Fin 8) :
    (unrotate rotated).get i = unrotateLane (rotated.get i) (rotated.get (i + 1)) :=
  Lanes.get_ofFn _ i

@[simp] theorem unpermute_get (perm : Lanes (Fin 8)) (inter : Lanes Byte) (i : Fin 8) :
    (unpermute perm inter).get i = inter.get (perm.get i) :=
  Lanes.get_ofFn _ i

/-! Each lane operation and its inverse. -/

/-- Stage S on a lane is subtraction of bytes (R52). -/
theorem subLane_eq_sub (r a : Byte) : subLane r a = r - a := by
  apply BitVec.eq_of_toNat_eq
  rw [subLane_toNat, and_0xFF_eq_mod, BitVec.toNat_sub]
  have := a.isLt
  congr 1
  omega

/-- A lane is read back: its low five bits from its own byte of the unrotated array, its high three from the byte
before. -/
theorem rotateLane_unrotateLane (prev cur next : Byte) :
    rotateLane (unrotateLane cur next) (unrotateLane prev cur) = cur := by
  apply BitVec.eq_of_getLsbD_eq
  intro k hk
  interval_cases k <;> simp [rotateLane, unrotateLane]

theorem unrotateLane_rotateLane (prev cur next : Byte) :
    unrotateLane (rotateLane cur prev) (rotateLane next cur) = cur := by
  apply BitVec.eq_of_getLsbD_eq
  intro k hk
  interval_cases k <;> simp [rotateLane, unrotateLane]

/-! Each stage and its inverse. -/

theorem subtract_unsubtract (adj out : Lanes Byte) : subtract adj (unsubtract adj out) = out :=
  Lanes.ext_get fun i => by rw [subtract_get, unsubtract_get, subLane_eq_sub, BitVec.add_sub_cancel]

theorem unsubtract_subtract (adj rotated : Lanes Byte) : unsubtract adj (subtract adj rotated) = rotated :=
  Lanes.ext_get fun i => by rw [unsubtract_get, subtract_get, subLane_eq_sub, BitVec.sub_add_cancel]

/-- Seven lanes on and one more is the lane itself. -/
theorem add_seven_add_one (i : Fin 8) : i + 7 + 1 = i := by omega

theorem add_one_add_seven (i : Fin 8) : i + 1 + 7 = i := by omega

theorem rotate_unrotate (rotated : Lanes Byte) : rotate (unrotate rotated) = rotated :=
  Lanes.ext_get fun i => by
    rw [rotate_get, unrotate_get, unrotate_get, add_seven_add_one, rotateLane_unrotateLane]

theorem unrotate_rotate (xored : Lanes Byte) : unrotate (rotate xored) = xored :=
  Lanes.ext_get fun i => by
    rw [unrotate_get, rotate_get, rotate_get, add_one_add_seven, unrotateLane_rotateLane]

/-- Stage X undoes itself. -/
theorem xorKey_xorKey (key inter : Lanes Byte) : xorKey key (xorKey key inter) = inter :=
  Lanes.ext_get fun i => by rw [xorKey_get, xorKey_get, BitVec.xor_assoc, BitVec.xor_self, BitVec.xor_zero]

section
variable {perm : Lanes (Fin 8)} (h : permBijective perm = true)
include h

/-- Every lane is some `PERM[i]`, and there both arrays hold entry `PERM[i]`. -/
theorem permute_unpermute (inter : Lanes Byte) : permute perm (unpermute perm inter) = inter :=
  Lanes.ext_get fun j => by
    obtain ⟨i, rfl⟩ := (permBijective_iff_surjective perm).1 h j
    rw [permute_get h, unpermute_get]

theorem unpermute_permute (raw : Lanes Byte) : unpermute perm (permute perm raw) = raw :=
  Lanes.ext_get fun i => by rw [unpermute_get, permute_get h]

end

section
variable {cfg : Config} (h : permBijective cfg.perm = true)
include h

@[simp] theorem deobfuscate_obfuscate (out : Lanes Byte) : deobfuscate cfg (obfuscate cfg out) = out := by
  rw [deobfuscate, obfuscate_eq, permute_unpermute h, xorKey_xorKey, rotate_unrotate, subtract_unsubtract]

@[simp] theorem obfuscate_deobfuscate (raw : Lanes Byte) : obfuscate cfg (deobfuscate cfg raw) = raw := by
  rw [obfuscate_eq, deobfuscate, unsubtract_subtract, unrotate_rotate, xorKey_xorKey, unpermute_permute h]

end

/-- Settles O17: OBF undoes the stages one by one, from either side. -/
theorem obfIsTheInverseOfDeobfuscate : Obligations.ObfIsTheInverseOfDeobfuscate :=
  fun _ a h => ⟨deobfuscate_obfuscate h a, obfuscate_deobfuscate h a⟩

/-- Settles O16: a function with a two-sided inverse is a bijection (R55, R56). -/
theorem deobfuscateIsABijection : Obligations.DeobfuscateIsABijection :=
  fun cfg h => Function.bijective_iff_has_inverse.2
    ⟨obfuscate cfg, obfuscate_deobfuscate h, deobfuscate_obfuscate h⟩

end Sys2Proof.Machine
end

