-- ==== Sys2Proof/Proofs/StageRows.lean ====
section
/-! SUPPORT. The datapath rows: VALID on evaluated flags, what the rows leave unchanged, and what they do without their
input (41_checksum R60, 10_state R9, 60_exceptions R93). -/

namespace Sys2Proof.Machine

/-! VALID (R60). -/

theorem State.stageValid_of_flags {s : State} {f : Flight} {tok sok : Bool} (hf : s.flight = some f)
    (htok : f.termOk = some tok) (hsok : f.sumOk = some sok) :
    s.stageValid = { s with flight := some { f with valid := some (validFlag tok sok) } } := by
  rw [State.stageValid, onFlight_some s _ f hf, htok, hsok]
  rfl

theorem exec_valid_of_bijective (s : State) (h : permBijective s.cfg.perm = true) :
    exec .valid s = .next s.stageValid :=
  guarded_of_bijective s _ h

/-- Settles O20: VALID writes the conjunction of the two flags. -/
theorem validIsBothFlags : Obligations.ValidIsBothFlags := by
  intro s f tok sok hperm hf htok hsok
  refine ⟨validFlag tok sok, Bool.and_eq_true_iff, ?_⟩
  rw [exec_valid_of_bijective s hperm, State.stageValid_of_flags hf htok hsok]

/-! The rows that evaluate values of the transaction in flight and write nothing else. -/

/-- The datapath rows but ADJUST and DEOBFUSCATE. -/
def flightRows : List Instr := [.permute, .xorkey, .rotate, .subtract, .sum, .termOk, .sumOk, .valid, .dispatch]

theorem mem_stageRows_cases {i : Instr} (h : i ∈ stageRows ++ [.deobfuscate]) :
    i ∈ flightRows ∨ i = .adjust ∨ i = .deobfuscate := by
  simp only [stageRows, flightRows, List.cons_append, List.nil_append, List.mem_cons, List.not_mem_nil] at h ⊢
  tauto

/-- Each of the rows is one guarded evaluation on the transaction in flight that keeps its sampled frame. -/
theorem exec_flightRow {i : Instr} (hi : i ∈ flightRows) (s : State) :
    ∃ g : Flight → Flight, (∀ f, (g f).raw = f.raw) ∧ exec i s = s.guarded (s.onFlight g) := by
  simp only [flightRows, List.mem_cons, List.not_mem_nil, or_false] at hi
  obtain rfl | rfl | rfl | rfl | rfl | rfl | rfl | rfl | rfl := hi
  all_goals
    refine ⟨_, ?_, rfl⟩
    exact fun _ => rfl

theorem flightRow_ne {i : Instr} (hi : i ∈ flightRows) : i ≠ .adjust ∧ i ≠ .deobfuscate := by
  constructor <;> (rintro rfl; revert hi; decide)

/-- An evaluation that keeps the sampled frame keeps that of the transaction in flight. -/
theorem State.onFlight_raw (s : State) {g : Flight → Flight} (hg : ∀ f, (g f).raw = f.raw) :
    (s.onFlight g).flight.map Flight.raw = s.flight.map Flight.raw := by
  cases hf : s.flight with
  | none => rw [onFlight_none s g hf, hf]
  | some f => rw [onFlight_some s g f hf, State.setFlight_flight, Option.map_some, Option.map_some, hg]

/-- DEOBFUSCATE on an idle unit evaluates stage A alone. -/
theorem State.stageDeobfuscate_of_idle {s : State} (h : s.flight = none) :
    s.stageDeobfuscate = { s with adj := adjust s.cfg.cstate } := by
  simp only [State.stageDeobfuscate, State.stagePermute, State.stageXorkey, State.stageRotate, State.stageAdjust,
    State.stageSubtract, onFlight_none _ _ h, onFlight_none _ _ ((State.setAdj_flight s _).trans h)]
  rfl

theorem State.stageDeobfuscate_raw (s : State) :
    s.stageDeobfuscate.flight.map Flight.raw = s.flight.map Flight.raw := by
  cases hf : s.flight with
  | none => rw [State.stageDeobfuscate_of_idle hf, hf]
  | some f => rw [State.stageDeobfuscate_of_flight hf]; rfl

theorem State.stageDeobfuscate_adj (s : State) : s.stageDeobfuscate.adj = adjust s.cfg.cstate := rfl

/-- Settles O43: a row evaluates on the transaction in flight (`exec_flightRow`), or is ADJUST, which writes ADJ, or
DEOBFUSCATE, which does both; the ADJ written is the derived table. -/
theorem stageRowsFrame : Obligations.StageRowsFrame := by
  intro s t i hi hexec
  obtain hrow | rfl | rfl := mem_stageRows_cases hi
  · obtain ⟨g, hraw, hg⟩ := exec_flightRow hrow s
    obtain ⟨-, rfl⟩ := (guarded_next_iff s _ t).1 (hg.symm.trans hexec)
    exact ⟨rfl, rfl, rfl, rfl, State.onFlight_raw s hraw, fun _ _ => rfl, fun h => absurd h (flightRow_ne hrow).1,
      fun _ => rfl⟩
  · obtain ⟨-, rfl⟩ := (guarded_next_iff s _ t).1 hexec
    exact ⟨rfl, rfl, rfl, rfl, rfl, fun h => absurd rfl h, fun _ => rfl, fun h => h.symm⟩
  · obtain ⟨-, rfl⟩ := (guarded_next_iff s _ t).1 hexec
    exact ⟨rfl, rfl, rfl, rfl, State.stageDeobfuscate_raw s, fun _ h => absurd rfl h, nofun,
      fun h => (State.stageDeobfuscate_adj s).trans h.symm⟩

/-! The rows without their input (60_exceptions R93, log entry 9). -/

/-- A guarded evaluation under an accepted configuration, by what it makes of the transaction in flight. -/
theorem guarded_onFlight_some {s : State} {f f' : Flight} {g : Flight → Flight}
    (hperm : permBijective s.cfg.perm = true) (hf : s.flight = some f) (hg : g f = f') :
    s.guarded (s.onFlight g) = .next { s with flight := some f' } := by
  rw [guarded_of_bijective s _ hperm, onFlight_some s g f hf, hg]
  rfl

/-- Settles O44: an idle unit evaluates nothing (`onFlight_none`), and a value whose input is missing is not evaluated,
as each stage maps over its inputs. -/
theorem stageRowsWithoutInput : Obligations.StageRowsWithoutInput := by
  intro s hperm
  refine ⟨fun hidle i hi => ?_, fun hidle => ?_, fun f hf => ⟨fun h => ?_, fun h => ?_, fun h => ?_, fun h => ?_,
    fun h => ?_, fun h => ?_, fun h => ?_, fun h => ?_⟩⟩
  · obtain ⟨g, -, hg⟩ := exec_flightRow hi s
    rw [hg, onFlight_none s g hidle, guarded_of_bijective s s hperm]
  · rw [exec_deobfuscate_of_bijective s hperm, State.stageDeobfuscate_of_idle hidle]
  · exact guarded_onFlight_some hperm hf (by rw [h]; rfl)
  · exact guarded_onFlight_some hperm hf (by rw [h]; rfl)
  · exact guarded_onFlight_some hperm hf (by rw [h]; rfl)
  · exact guarded_onFlight_some hperm hf (by rw [h]; rfl)
  · exact guarded_onFlight_some hperm hf (by rw [h]; rfl)
  · refine guarded_onFlight_some hperm hf ?_
    obtain h | h := h
    · rw [h]; rfl
    · rw [h]; cases f.sum <;> rfl
  · refine guarded_onFlight_some hperm hf ?_
    obtain h | h := h
    · rw [h]; rfl
    · rw [h]; cases f.termOk <;> rfl
  · exact guarded_onFlight_some hperm hf (by rw [h]; rfl)

end Sys2Proof.Machine
end

