-- ==== Sys2Proof/Proofs/TransactionRows.lean ====
section
/-! SUPPORT. A transaction as the row its frame decodes to and as its stages in order, what the latch shows of the
frame, and what the transaction rows and the host's rows leave unchanged (30_encoding section 3, section 4 and R45;
43_frame_transaction R69, R70). -/

namespace Sys2Proof.Machine

/-! FRAME as its decoded row (30_encoding section 3). -/

/-- The row of a DecryptedFrame latches the frame's result: a valid frame is built again from the row's operands
(`validFrame_of_valid`). -/
theorem exec_classify {s : State} (hperm : permBijective s.cfg.perm = true) (out : Lanes Byte) :
    exec (classify out) s = .next (s.latch (resultOf s.cfg.tempEval out)) := by
  have hne : opTemp ≠ opCo2 := by decide
  obtain ⟨hv, hc⟩ | ⟨hv, hop, hc⟩ | ⟨hv, hop, hc⟩ | ⟨hv, hop, hc⟩ := classify_cases out
  · rw [hc, exec_badframe_of_bijective s hperm]
    simp [State.pathBadframe, resultOf, hv]
  · have hframe := validFrame_of_valid out hv
    rw [hop] at hframe
    rw [hc, exec_co2_of_bijective s hperm]
    simp [State.pathCo2, hframe, resultOf, hv, decodeReading, hop]
  · have hframe := validFrame_of_valid out hv
    rw [hop] at hframe
    rw [hc, exec_temp_of_bijective s hperm]
    simp [State.pathTemp, hframe, resultOf, hv, decodeReading, hop, hne]
  · obtain ⟨hnotCo2, hnotTemp⟩ : opcode out ≠ opCo2 ∧ opcode out ≠ opTemp := by simpa [unrecognized] using hop
    rw [hc, exec_noread_of_bijective s hperm]
    simp [State.pathNoread, validFrame_of_valid out hv, resultOf, hv, decodeReading, hnotCo2, hnotTemp]

/-- Settles O30: both sides latch the result of the deobfuscated frame (`transact_eq`, `exec_classify`). -/
theorem frameRunsItsDecodedRow : Obligations.FrameRunsItsDecodedRow := by
  intro s w hperm
  rw [execFrame_of_bijective hperm, transact_eq]
  symm
  refine exec_classify ?_ _
  exact hperm

/-! The datapath rows in order (43_frame_transaction R69). -/

/-- A list of instructions is run part by part. -/
theorem execAll_append_of_next {is : List Instr} {s t : State} (h : execAll is s = .next t) (rest : List Instr) :
    execAll (is ++ rest) s = execAll rest t := by
  induction is generalizing s with
  | nil => cases h; rfl
  | cons i is ih =>
    rw [List.cons_append, execAll]
    rw [execAll] at h
    cases hi : exec i s with
    | next u => simp only [hi] at h ⊢; exact ih h
    | fault r => simp [hi] at h
    | refused r => simp [hi] at h

/-- The ten rows in order leave what the transaction's stages leave: no stage writes the configuration, so each row's
guard passes. -/
theorem execAll_stageRows {s : State} (hperm : permBijective s.cfg.perm = true) :
    execAll stageRows s = .next s.runStages := by
  refine (execAll_append_of_next (execAll_deobfuscator_rows hperm) _).trans ?_
  set t := s.stageDeobfuscate
  have hperm : permBijective t.cfg.perm = true := hperm
  rw [execAll_cons_of_next (exec_sum_of_bijective t hperm),
    execAll_cons_of_next (exec_termOk_of_bijective t.stageSum hperm),
    execAll_cons_of_next (exec_sumOk_of_bijective t.stageSum.stageTermOk hperm),
    execAll_cons_of_next (exec_valid_of_bijective t.stageSum.stageTermOk.stageSumOk hperm),
    execAll_cons_of_next (exec_dispatch_of_bijective t.stageSum.stageTermOk.stageSumOk.stageValid hperm)]
  rfl

/-- Settles O31: the rows leave the evaluated transaction (`execAll_stageRows`, `runStages_some`), and the decoded row
latches its result as FRAME does (`exec_classify`, `transact_eq`). -/
theorem stageRowsInOrderAreTheTransaction : Obligations.StageRowsInOrderAreTheTransaction := by
  intro s w hperm
  have hstages := execAll_stageRows (s := s.accept w) hperm
  rw [runStages_some (s.accept w) _ rfl] at hstages
  set t := ((s.accept w).setAdj _).setFlight _
  have hrow : exec (classify (deobfuscate s.cfg (bytes8 w))) t = .next (t.latch _) := exec_classify (s := t) hperm _
  rw [execAll_append_of_next hstages, execAll_cons_of_next hrow, execFrame_of_bijective hperm, transact_eq]
  rfl

/-! What the latch shows of its frame. -/

/-- RES.FRAME is the DecryptedFrame on every verdict of a transaction (10_state R17). -/
@[simp] theorem resultOf_frame (mode : TempEval) (out : Lanes Byte) :
    (resultOf mode out).frame = some (word64 out) := by
  rw [resultOf_eq_ite]
  split_ifs <;> rfl

/-- Settles O32: FRAME.PLAIN is FRAME of the raw frame that deobfuscates to its operand (`deobfuscate_obfuscate`). -/
theorem framePlainLatchesTheFrameItNames : Obligations.FramePlainLatchesTheFrameItNames := by
  intro s w hperm
  have hres : (s.transact (word64 (obfuscate s.cfg (bytes8 w)))).res = resultOf s.cfg.tempEval (bytes8 w) := by
    rw [State.transact_res, bytes8_word64, deobfuscate_obfuscate hperm]
  refine ⟨_, guarded_of_bijective s _ hperm, hres, ?_, ?_, ?_⟩
  · rw [hres, resultOf_frame, word64_bytes8]
  · rw [transact_eq, latch_flight]
  · rw [transact_eq, latch_pins, State.setPins_pins]

/-- The verdict, the flags, the payload and the reading are functions of bytes 0 to 4 (30_encoding section 4). -/
theorem resultOf_congr (mode : TempEval) {out out' : Lanes Byte} (h0 : out.l0 = out'.l0) (h1 : out.l1 = out'.l1)
    (h2 : out.l2 = out'.l2) (h3 : out.l3 = out'.l3) (h4 : out.l4 = out'.l4) :
    (resultOf mode out).verdict = (resultOf mode out').verdict ∧
      (resultOf mode out).termOk = (resultOf mode out').termOk ∧
      (resultOf mode out).sumOk = (resultOf mode out').sumOk ∧
      (resultOf mode out).payload = (resultOf mode out').payload ∧
      (resultOf mode out).readingOf = (resultOf mode out').readingOf := by
  have hpayload : payload out = payload out' := by rw [payload, payload, h1, h2]
  have htok : termOk out = termOk out' := by rw [termOk, termOk, h4]
  have hsok : sumOk (checksum out) out = sumOk (checksum out') out' := by
    rw [checksum_eq, checksum_eq, sumOk, sumOk, h0, h1, h2, h3]
  have hvalid : valid out = valid out' := by rw [valid, valid, htok, hsok]
  have hdecode : decodeReading mode out = decodeReading mode out' := by
    rw [decodeReading, decodeReading, opcode, opcode, h0, hpayload]
  rw [resultOf, resultOf, hpayload, htok, hsok, hvalid, hdecode]
  cases valid out' with
  | false => simp [Res.verdict, Res.termOk, Res.sumOk, Res.payload, Res.readingOf]
  | true =>
    cases decodeReading mode out' <;> simp [Res.verdict, Res.termOk, Res.sumOk, Res.payload, Res.readingOf]

/-- Settles O34: both latches hold the results of frames that agree on the bytes read (`resultOf_congr`). -/
theorem reservedBytesAreUnread : Obligations.ReservedBytesAreUnread := by
  intro s w w' hperm hagree
  refine ⟨_, _, execFrame_of_bijective hperm w, execFrame_of_bijective hperm w', ?_⟩
  rw [State.transact_res, State.transact_res]
  exact resultOf_congr _ (hagree 0 (by decide)) (hagree 1 (by decide)) (hagree 2 (by decide)) (hagree 3 (by decide))
    (hagree 4 (by decide))

/-! What the transaction rows leave unchanged (60_exceptions R81). -/

@[simp] theorem State.transact_adj (s : State) (w : BitVec 64) : (s.transact w).adj = adjust s.cfg.cstate := by
  rw [transact_eq, latch_adj, State.setPins_adj, State.setAdj_adj]

@[simp] theorem State.transact_flight (s : State) (w : BitVec 64) : (s.transact w).flight = none := by
  rw [transact_eq, latch_flight]

@[simp] theorem State.transact_pins (s : State) (w : BitVec 64) :
    (s.transact w).pins = { s.pins with frameIn := w, inValid := false } := by
  rw [transact_eq, latch_pins, State.setPins_pins]

/-- FRAME and FRAME.PLAIN answer the transaction of some raw frame. -/
theorem exec_transactionRow {s t : State} {i : Instr} (hi : (∃ w, i = .frame w) ∨ ∃ w, i = .framePlain w)
    (h : exec i s = .next t) : ∃ w, t = s.transact w := by
  obtain ⟨w, rfl⟩ | ⟨w, rfl⟩ := hi
  · exact ⟨_, ((guarded_next_iff s _ t).1 h).2.symm⟩
  · exact ⟨_, ((guarded_next_iff s _ t).1 h).2.symm⟩

/-- A DecryptedFrame row latches a result and does nothing else. -/
theorem exec_verdictRow {s t : State} {i : Instr}
    (hi : (∃ p r5 r6 r7, i = .co2 p r5 r6 r7) ∨ (∃ p r5 r6 r7, i = .temp p r5 r6 r7) ∨
      (∃ op p r5 r6 r7, i = .noread op p r5 r6 r7) ∨ ∃ out, i = .badframe out)
    (h : exec i s = .next t) : ∃ r, t = s.latch r := by
  obtain ⟨p, r5, r6, r7, rfl⟩ | ⟨p, r5, r6, r7, rfl⟩ | ⟨op, p, r5, r6, r7, rfl⟩ | ⟨out, rfl⟩ := hi
  all_goals exact ⟨_, ((guarded_next_iff s _ t).1 h).2.symm⟩

/-- Settles O42: FRAME and FRAME.PLAIN answer a transaction (`exec_transactionRow`), the DecryptedFrame rows a latched
result (`exec_verdictRow`), whose fields are known. -/
theorem transactionRowsFrame : Obligations.TransactionRowsFrame := by
  intro s t i h
  refine ⟨fun hi => ?_, fun hi => ?_⟩
  · obtain ⟨w, rfl⟩ := exec_transactionRow hi h
    simp [eq_comm]
  · obtain ⟨r, rfl⟩ := exec_verdictRow hi h
    simp

/-! The host's rows (43_frame_transaction R70, R74; 70_reset_and_hazards R94). -/

/-- Settles O45: RESET answers `doReset`, HANDSHAKE only writes a report, and YIELD only the stream and the taken mark
(`execYield_cases`). -/
theorem hostRowsFrame : Obligations.HostRowsFrame := by
  intro s t
  refine ⟨fun h => ?_, fun h => ?_, fun h => ?_⟩
  · cases h
    exact ⟨rfl, rfl, rfl, rfl, rfl⟩
  · cases h
    exact ⟨rfl, rfl, rfl, rfl, rfl, rfl, rfl, rfl, rfl, rfl⟩
  · obtain hy | ⟨r, -, -, hy⟩ := execYield_cases s
    all_goals
      cases hy.symm.trans h
      exact ⟨rfl, rfl, rfl, rfl, rfl, rfl, rfl, rfl, rfl⟩

/-- A latch shows a Reading exactly when its verdict is READING (43_frame_transaction R70). -/
theorem Res.readingOf_eq_none_iff (r : Res) : r.readingOf = none ↔ r.verdict ≠ .reading := by
  cases r <;> simp [Res.readingOf, Res.verdict]

/-- Settles O38: YIELD goes by the latched Reading and the taken mark. -/
theorem yieldTakesTheReadingOnce : Obligations.YieldTakesTheReadingOnce := by
  intro s
  have hexec : exec .yield s = execYield s := rfl
  refine ⟨fun frame p r hres hfresh => ?_, fun hverdict => ?_, fun htaken => ?_⟩
  · have hreading : s.res.readingOf = some r := by rw [hres]; rfl
    rw [hexec, execYield, hreading]
    exact if_pos hfresh
  · rw [hexec, execYield, (Res.readingOf_eq_none_iff s.res).2 hverdict]
  · obtain hy | ⟨r, -, hfresh, -⟩ := execYield_cases s
    · exact hy
    · rw [htaken] at hfresh; cases hfresh

/-- Settles O41: the empty latch gives RES.KIND no value, a discard gives it NONE, and a Reading its tag. -/
theorem kindThreeIsNeverRead : Obligations.KindThreeIsNeverRead := by
  intro r w h
  cases r with
  | empty => cases h
  | discardChecksum | discardUnrecognized => cases h; exact .inl rfl
  | reading _ _ rd =>
    cases rd with
    | co2 => cases h; exact .inr (.inl rfl)
    | temperature => cases h; exact .inr (.inr rfl)

end Sys2Proof.Machine
end

