-- ==== Sys2Proof/Proofs/Steps.lean ====
section
/-! SUPPORT. What a step runs, by what is presented to the unit: RESET, an offered frame, a host's move, or nothing
(10_state R14, 20_memory R28, R29; 60_exceptions R93; log entries 5 and 13). -/

namespace Sys2Proof.Machine

theorem step_of_reset {s : State} (hreset : s.pins.reset = true) : step s = exec .reset s := by
  simp [step, fetch, hreset]

theorem step_of_offer {s : State} (hreset : s.pins.reset = false) (hvalid : s.pins.inValid = true) :
    step s = exec (.frame s.pins.frameIn) s := by
  simp [step, fetch, hreset, hvalid]

section
variable {s : State} {rest : List HostMove} (hreset : s.pins.reset = false) (hvalid : s.pins.inValid = false)
include hreset hvalid

theorem step_of_line {l : Line} {i : Instr} (hscript : s.host.script = .line l :: rest)
    (hdriven : hostDriven l.port = true) (hdecode : decode l = .ok i) :
    step s = exec i (s.setHost { s.host with script := rest }) := by
  simp [step, fetch, fetchMove, fetchLine, hreset, hvalid, hscript, hdriven, hdecode]

theorem step_of_badLine {l : Line} {e : DecodeError} (hscript : s.host.script = .line l :: rest)
    (hdriven : hostDriven l.port = true) (hdecode : decode l = .error e) : step s = .refused (.badOffer e) := by
  simp [step, fetch, fetchMove, fetchLine, hreset, hvalid, hscript, hdriven, hdecode]

theorem step_of_readKey (hscript : s.host.script = .readKey :: rest) :
    step s = hostReadKey (s.setHost { s.host with script := rest }) := by
  simp [step, fetch, fetchMove, hreset, hvalid, hscript]

theorem step_of_quiet (hscript : s.host.script = []) : step s = quiet s := by
  simp [step, fetch, hreset, hvalid, hscript]

end

/-- The host drives every port but the deobfuscator's output (60_exceptions R92). -/
theorem hostDriven_iff (p : Port) : hostDriven p = true ↔ p ≠ .out := by
  cases p <;> simp [hostDriven]

/-- Settles O46, one lemma for each thing presented. -/
theorem stepRunsThePresentedInstruction : Obligations.StepRunsThePresentedInstruction :=
  fun _ => ⟨step_of_reset, step_of_offer, fun hreset hvalid l _ _ hscript hport =>
    step_of_line hreset hvalid hscript ((hostDriven_iff l.port).2 hport)⟩

/-- Settles O40: the step is the host's read of KEY_OUT, which writes the host's fields alone. -/
theorem keyOutIsThePackedKey : Obligations.KeyOutIsThePackedKey :=
  fun _ _ hreset hvalid hscript => step_of_readKey hreset hvalid hscript

/-- Eight bytes make an array, and no other number does (20_memory R28). -/
theorem lanesOf_eq_none {bytes : List Byte} (h : bytes.length ≠ 8) : lanesOf bytes = none := by
  cases hlanes : lanesOf bytes with
  | none => rfl
  | some a =>
    have hlength : bytes.length = 8 := by rw [lanesOf_eq_some hlanes]; rfl
    exact absurd hlength h

/-- The decoder names the port and the length of a partial or longer frame (20_memory R28). -/
theorem decode_of_wrongLength {l : Line} (hport : l.port = .frameIn ∨ l.port = .plain) (hlength : l.bytes.length ≠ 8) :
    decode l = .error (.wrongLength l.port l.bytes.length) := by
  obtain ⟨port, bytes⟩ := l
  have hnone : lanesOf bytes = none := lanesOf_eq_none hlength
  obtain rfl | rfl := hport
  · simp only [decode, hnone]
  · simp only [decode, hnone]

/-- Settles O48: the host drives both frame ports, and the decoder rejects the line (`decode_of_wrongLength`). -/
theorem partialFrameCannotBeOffered : Obligations.PartialFrameCannotBeOffered := by
  intro s l rest hreset hvalid hscript hport hlength
  have hdriven : hostDriven l.port = true := (hostDriven_iff l.port).2 (by obtain h | h := hport <;> simp [h])
  exact step_of_badLine hreset hvalid hscript hdriven (decode_of_wrongLength hport hlength)

/-! No move presented (60_exceptions R93). -/

theorem quiet_of_idle {s : State} (h : s.flight = none) : quiet s = .next s := by
  simp only [quiet, h]

theorem quiet_of_flight {s : State} {f : Flight} (h : s.flight = some f) : quiet s = s.guarded s.complete := by
  simp only [quiet, h]

/-- Completing a transaction in flight latches the result of the frame it sampled (43_frame_transaction R69). -/
theorem complete_of_flight {s : State} {f : Flight} (h : s.flight = some f) :
    s.complete = (s.setAdj (adjust s.cfg.cstate)).latch (resultOf s.cfg.tempEval (deobfuscate s.cfg f.raw)) := by
  have hcomplete : s.complete = s.runStages.finish := by simp only [State.complete, h]
  rw [hcomplete, runStages_some s f h, finish_evaluated _ f.raw rfl]
  rfl

/-- Settles O47: the step is `quiet`, which holds an idle unit and completes a transaction in flight. -/
theorem quietStepHoldsOrCompletes : Obligations.QuietStepHoldsOrCompletes := by
  intro s hreset hvalid hscript
  rw [step_of_quiet hreset hvalid hscript]
  refine ⟨quiet_of_idle, fun f hf hperm => ?_⟩
  rw [quiet_of_flight hf, guarded_of_bijective s _ hperm, complete_of_flight hf]
  rfl

end Sys2Proof.Machine
end

