-- ==== Sys2Proof/Proofs/Soundness.lean ====
section
/-! SUPPORT. What a step can do to the unit and to the stream, once each, and what follows: the machine stays sound, and
every Reading in the stream comes from a valid recognised frame (10_state R13, R17; 43_frame_transaction R69 to R73;
70_reset_and_hazards R100). -/

namespace Sys2Proof.Machine

/-! What a step can do to the unit. -/

/-- What happens to latch, flight and ADJ from `s` to `t`: nothing, RESET, or a transaction's end. -/
inductive UnitChange (s t : State) : Prop where
  /-- The unit is as it was. -/
  | held (hres : t.res = s.res) (hflight : t.flight = s.flight) (hadj : t.adj = s.adj)
  /-- RESET emptied the latch (70_reset_and_hazards R94). -/
  | emptied (hres : t.res = .empty) (hflight : t.flight = none) (hadj : t.adj = s.adj)
  /-- A transaction latched the result of its DecryptedFrame (43_frame_transaction R69). -/
  | latched (out : Lanes Byte) (hres : t.res = resultOf s.cfg.tempEval out) (hflight : t.flight = none)
      (hadj : t.adj = adjust s.cfg.cstate)

/-- The host's fields before do not matter to the unit. -/
theorem UnitChange.of_setHost {s t : State} {h : HostSide} (hc : UnitChange (s.setHost h) t) : UnitChange s t := by
  cases hc with
  | held hres hflight hadj => exact .held hres hflight hadj
  | emptied hres hflight hadj => exact .emptied hres hflight hadj
  | latched out hres hflight hadj => exact .latched out hres hflight hadj

/-- The instructions a host's line can give: it drives no DecryptedFrame (60_exceptions R92), and no word is a datapath
row. -/
theorem fetchedInstr_cases {l : Line} {i : Instr} (hdriven : hostDriven l.port = true) (hdecode : decode l = .ok i) :
    ((∃ w, i = .frame w) ∨ ∃ w, i = .framePlain w) ∨ i = .reset ∨ i = .handshake ∨ i = .yield := by
  obtain ⟨raw, rfl, rfl⟩ | ⟨plain, rfl, rfl⟩ | ⟨out, rfl, rfl⟩ | ⟨rfl, rfl⟩ | ⟨rfl, rfl⟩ | ⟨rfl, rfl⟩ :=
    decode_cases hdecode
  · exact .inl (.inl ⟨_, rfl⟩)
  · exact .inl (.inr ⟨_, rfl⟩)
  · cases hdriven
  · exact .inr (.inl rfl)
  · exact .inr (.inr (.inl rfl))
  · exact .inr (.inr (.inr rfl))

theorem exec_unitChange {i : Instr} {s t : State}
    (hi : ((∃ w, i = .frame w) ∨ ∃ w, i = .framePlain w) ∨ i = .reset ∨ i = .handshake ∨ i = .yield)
    (h : exec i s = .next t) : UnitChange s t := by
  obtain hi | rfl | rfl | rfl := hi
  · obtain ⟨w, rfl⟩ := exec_transactionRow hi h
    exact .latched _ (State.transact_res s w) (State.transact_flight s w) (State.transact_adj s w)
  · cases h
    exact .emptied rfl rfl rfl
  · cases h
    exact .held rfl rfl rfl
  · obtain hy | ⟨r, -, -, hy⟩ := execYield_cases s
    all_goals
      cases hy.symm.trans h
      exact .held rfl rfl rfl

theorem hostRead_unitChange {f : ResField} {s t : State} (h : hostRead f s = .next t) : UnitChange s t := by
  obtain ⟨w, -, hread⟩ | ⟨-, hread⟩ := hostRead_cases f s
  all_goals
    cases hread.symm.trans h
    exact .held rfl rfl rfl

theorem quiet_unitChange {s t : State} (h : quiet s = .next t) : UnitChange s t := by
  cases hf : s.flight with
  | none => cases (quiet_of_idle hf).symm.trans h; exact .held rfl rfl rfl
  | some f =>
    obtain ⟨-, rfl⟩ := (guarded_next_iff s _ t).1 ((quiet_of_flight hf).symm.trans h)
    rw [complete_of_flight hf]
    exact .latched _ rfl rfl rfl

/-- What a step can do to the unit, wherever its next state comes from (`step_cases`). -/
theorem step_unitChange {s t : State} (h : step s = .next t) : UnitChange s t := by
  obtain ⟨-, hx⟩ | ⟨-, -, hx⟩ | ⟨l, rest, i, -, -, -, hdriven, hdecode, hx⟩ | ⟨f, rest, -, -, -, hx⟩ |
    ⟨rest, -, -, -, hx⟩ | ⟨-, -, -, hx⟩ := step_cases h
  · exact exec_unitChange (.inr (.inl rfl)) hx
  · exact exec_unitChange (.inl (.inl ⟨_, rfl⟩)) hx
  · exact (exec_unitChange (fetchedInstr_cases hdriven hdecode) hx).of_setHost
  · exact (hostRead_unitChange hx).of_setHost
  · cases hx; exact .held rfl rfl rfl
  · exact quiet_unitChange hx

/-! The machine stays sound. -/

/-- A transaction's result is what the rules give its frame (10_state R17, 43_frame_transaction R69). -/
theorem resultOf_faithful (mode : TempEval) (out : Lanes Byte) : (resultOf mode out).faithful mode := by
  cases hv : valid out with
  | false => simp [resultOf, hv, Res.faithful]
  | true =>
    cases hd : decodeReading mode out with
    | some r => simp [resultOf, hv, hd, Res.faithful]
    | none =>
      have hop : unrecognized (opcode out) = true := by
        simp only [decodeReading] at hd
        split_ifs at hd with hco2 htemp
        simp [unrecognized, hco2, htemp]
      simp [resultOf, hv, hd, Res.faithful, hop]

/-- Settles O50, over `step_unitChange`: nothing of the invariant changes, or the latch is empty, or it holds the result
of a frame (`resultOf_faithful`), with ADJ the derived table. -/
theorem stepKeepsTheMachineSound : Obligations.StepKeepsTheMachineSound := by
  rintro s t ⟨⟨hperm, hadj⟩, hready, hfaithful⟩ hstep
  have hidle : s.flight = none := Option.isNone_iff_eq_none.1 hready
  have hcfg : t.cfg = s.cfg := step_keeps_cfg hstep
  rw [State.sound, State.configured, hcfg]
  cases step_unitChange hstep with
  | held hres hflight hadj' =>
    exact ⟨⟨hperm, hadj'.trans hadj⟩, State.inReady_of_idle (hflight.trans hidle), hres ▸ hfaithful⟩
  | emptied hres hflight hadj' =>
    exact ⟨⟨hperm, hadj'.trans hadj⟩, State.inReady_of_idle hflight, hres ▸ trivial⟩
  | latched out hres hflight hadj' =>
    exact ⟨⟨hperm, hadj'⟩, State.inReady_of_idle hflight, hres ▸ resultOf_faithful _ out⟩

/-- The power-on state of an accepted configuration is sound. -/
theorem powerOn_sound {c : Config} (h : permBijective c.perm = true) : (State.powerOn c).sound :=
  ⟨⟨h, rfl⟩, rfl, trivial⟩

/-- Settles O49: `powerOn_sound`, for the default tables too, whose PERM is accepted. -/
theorem resetStateIsSound : Obligations.ResetStateIsSound :=
  ⟨powerOn_sound (by decide), rfl, rfl, fun _ h => ⟨powerOn_sound h, rfl, rfl⟩⟩

/-- Settles O52: of the three changes only a transaction's end writes a READING verdict, and its result is R69's choice
on the frame's bytes (`resultOf_eq_ite`). -/
theorem readingsComeFromValidRecognisedFrames : Obligations.ReadingsComeFromValidRecognisedFrames := by
  intro s t hstep hverdict
  cases step_unitChange hstep with
  | held hres => exact .inl hres
  | emptied hres => rw [hres] at hverdict; cases hverdict
  | latched out hres =>
    right
    refine ⟨out, by rw [hres, resultOf_frame], ?_⟩
    rw [hres] at hverdict ⊢
    rw [resultOf_eq_ite] at hverdict ⊢
    split_ifs at hverdict ⊢ with hv hco2 htemp
    · exact ⟨hv.1, hv.2, .inl ⟨hco2, rfl⟩⟩
    · exact ⟨hv.1, hv.2, .inr ⟨htemp, rfl⟩⟩
    · cases hverdict
    · cases hverdict

/-! What a step can do to the stream. -/

/-- The stream is as it was, or has at its end the latched Reading, which had not been taken (43_frame_transaction R70,
log entry 6). -/
def StreamGrowth (s t : State) : Prop :=
  t.host.stream = s.host.stream ∨
    ∃ r, s.res.readingOf = some r ∧ s.host.fresh = true ∧ t.host.stream = s.host.stream ++ [r] ∧ t.host.fresh = false

/-- What the guard lets through keeps the stream if the guarded state does. -/
theorem guarded_keeps_stream {s t u : State} (h : s.guarded t = .next u) (ht : t.host.stream = s.host.stream) :
    u.host.stream = s.host.stream := by
  obtain ⟨-, rfl⟩ := (guarded_next_iff s t u).1 h
  exact ht

/-- Of the rows of the opcode table only YIELD writes the stream. -/
theorem exec_streamGrowth {i : Instr} {s t : State} (h : exec i s = .next t) : StreamGrowth s t := by
  cases i with
  | frame | framePlain => exact .inl (guarded_keeps_stream h (by rw [State.transact_host]))
  | co2 | temp | noread | badframe => exact .inl (guarded_keeps_stream h rfl)
  | permute | xorkey | rotate | adjust | subtract | deobfuscate | sum | termOk | sumOk | valid | dispatch =>
    exact .inl (guarded_keeps_stream h rfl)
  | reset | handshake => cases h; exact .inl rfl
  | yield =>
    obtain hy | ⟨r, hr, hfresh, hy⟩ := execYield_cases s
    · cases hy.symm.trans h; exact .inl rfl
    · cases hy.symm.trans h; exact .inr ⟨r, hr, hfresh, rfl, rfl⟩

theorem hostRead_keeps_stream {f : ResField} {s t : State} (h : hostRead f s = .next t) :
    t.host.stream = s.host.stream := by
  obtain ⟨w, -, hread⟩ | ⟨-, hread⟩ := hostRead_cases f s
  all_goals
    cases hread.symm.trans h
    rfl

theorem quiet_keeps_stream {s t : State} (h : quiet s = .next t) : t.host.stream = s.host.stream := by
  cases hf : s.flight with
  | none => cases (quiet_of_idle hf).symm.trans h; rfl
  | some f =>
    exact guarded_keeps_stream ((quiet_of_flight hf).symm.trans h) (by rw [complete_of_flight hf, latch_host]; rfl)

/-- What a step can do to the stream (`step_cases`); taking a move off the script leaves the stream, the latch and the
taken mark. -/
theorem step_streamGrowth {s t : State} (h : step s = .next t) : StreamGrowth s t := by
  obtain ⟨-, hx⟩ | ⟨-, -, hx⟩ | ⟨l, rest, i, -, -, -, -, -, hx⟩ | ⟨f, rest, -, -, -, hx⟩ | ⟨rest, -, -, -, hx⟩ |
    ⟨-, -, -, hx⟩ := step_cases h
  · exact exec_streamGrowth hx
  · exact exec_streamGrowth hx
  · have hgrowth := exec_streamGrowth hx
    exact hgrowth
  · have hkept := hostRead_keeps_stream hx
    exact .inl hkept
  · cases hx; exact .inl rfl
  · exact .inl (quiet_keeps_stream hx)

/-- Settles O53: the stream's growth is `step_streamGrowth`. -/
theorem streamGrowsOnlyByTheLatchedReading : Obligations.StreamGrowsOnlyByTheLatchedReading :=
  fun _ _ => step_streamGrowth

/-! Every Reading in the stream is genuine (43_frame_transaction R71). -/

/-- A Reading in a faithful latch is genuine. -/
theorem Res.genuine_of_faithful {mode : TempEval} {res : Res} {r : Reading} (hfaithful : res.faithful mode)
    (hreading : res.readingOf = some r) : res.genuine mode r := by
  cases res with
  | empty | discardChecksum | discardUnrecognized => cases hreading
  | reading frame p rd =>
    cases hreading
    obtain ⟨hvalid, hdecode, -⟩ := hfaithful
    exact ⟨frame, p, rfl, hvalid, hdecode⟩

/-- Settles O51: a step adds the latched Reading or none (`step_streamGrowth`), and a sound latch is faithful. -/
theorem stepKeepsTheStreamGenuine : Obligations.StepKeepsTheStreamGenuine := by
  rintro s t ⟨-, -, hfaithful⟩ hstep
  obtain hkept | ⟨r, hreading, -, hadded, -⟩ := step_streamGrowth hstep
  · exact ⟨[], by rw [hkept, List.append_nil], nofun⟩
  · exact ⟨[r], hadded, by simpa using Res.genuine_of_faithful hfaithful hreading⟩

/-- Every state reached from a sound one is sound: the invariant holds at the start and each step keeps it. -/
theorem State.reaches.sound {s t : State} (hreach : s.reaches t) (hsound : s.sound) : t.sound := by
  induction hreach with
  | start => exact hsound
  | next _ hstep ih => exact stepKeepsTheMachineSound _ _ ih hstep

/-- Settles O59 by induction on the run: a Reading of the last state was in the stream before the last step, or the last
step added it (`stepKeepsTheStreamGenuine`) from the latch of the state before. -/
theorem streamIsGenuineAlongEveryRun : Obligations.StreamIsGenuineAlongEveryRun := by
  intro s t hsound hempty hreach
  induction hreach with
  | start => rw [hempty]; exact nofun
  | @next t u hreach hstep ih =>
    intro r hr
    obtain ⟨added, hstream, hgenuine⟩ := stepKeepsTheStreamGenuine t u (hreach.sound hsound) hstep
    rw [hstream, List.mem_append] at hr
    obtain hr | hr := hr
    · obtain ⟨v, hsv, hvt, hv⟩ := ih r hr
      exact ⟨v, hsv, hvt.next hstep, hv⟩
    · exact ⟨t, hreach, State.reaches.start.next hstep, hgenuine r hr⟩

end Sys2Proof.Machine
end

