-- ==== Sys2Proof/Proofs/SkipLoop.lean ====
section
/-! SUPPORT. The skip loop result by result, what it goes past, how it ends, and the start of a session
(43_frame_transaction R72; 60_exceptions R88, R89). -/

namespace Sys2Proof.Machine

/-! The loop on its next result (60_exceptions R89). -/

section
variable {isFatal : Nat → Bool} {rest : List AdapterResult} {s : State}

theorem nextReading_timeout : nextReading isFatal (.timeout :: rest) s = nextReading isFatal rest s := rfl

theorem nextReading_transient {e : Nat} (he : isFatal e = false) :
    nextReading isFatal (.ioError e :: rest) s = nextReading isFatal rest s := by
  simp [nextReading, errorEvent, hostPolicy, he]

theorem nextReading_fatal {e : Nat} (he : isFatal e = true) :
    nextReading isFatal (.ioError e :: rest) s = .fatal .read s := by
  simp [nextReading, errorEvent, hostPolicy, he]

theorem nextReading_refused {w : BitVec 64} (hperm : permBijective s.cfg.perm = false) :
    nextReading isFatal (.frame w :: rest) s = .refused (.configInvalid .permNotBijection) := by
  have hexec : execFrame w s = .refused (.configInvalid .permNotBijection) := guarded_of_not_bijective s _ hperm
  simp only [nextReading, hexec]

variable {w : BitVec 64} (hperm : permBijective s.cfg.perm = true)
include hperm

theorem nextReading_yields {r : Reading}
    (hr : (resultOf s.cfg.tempEval (deobfuscate s.cfg (bytes8 w))).readingOf = some r) :
    nextReading isFatal (.frame w :: rest) s = .reading r (s.transact w) rest := by
  have hexec : execFrame w s = .next (s.transact w) := execFrame_of_bijective hperm w
  simp only [nextReading, hexec, State.transact_res, hr]

theorem nextReading_discards (hr : (resultOf s.cfg.tempEval (deobfuscate s.cfg (bytes8 w))).readingOf = none) :
    nextReading isFatal (.frame w :: rest) s = nextReading isFatal rest (s.transact w) := by
  have hexec : execFrame w s = .next (s.transact w) := execFrame_of_bijective hperm w
  simp only [nextReading, hexec, State.transact_res, hr]

end

/-! The results that the loop goes past. -/

section
variable {isFatal : Nat → Bool} {cfg : Config} {results : List AdapterResult}

@[simp] theorem skippable_nil : skippable isFatal cfg [] := ⟨nofun, nofun⟩

@[simp] theorem skippable_timeout_cons :
    skippable isFatal cfg (.timeout :: results) ↔ skippable isFatal cfg results := by
  simp [skippable]

@[simp] theorem skippable_ioError_cons {e : Nat} :
    skippable isFatal cfg (.ioError e :: results) ↔ isFatal e = false ∧ skippable isFatal cfg results := by
  simp [skippable, and_left_comm]

@[simp] theorem skippable_frame_cons {w : BitVec 64} :
    skippable isFatal cfg (.frame w :: results) ↔
      (resultOf cfg.tempEval (deobfuscate cfg (bytes8 w))).readingOf = none ∧ skippable isFatal cfg results := by
  simp [skippable, and_assoc]

end

/-- The loop goes past such results, to a state of the same unit. -/
theorem nextReading_skip {isFatal : Nat → Bool} {skipped : List AdapterResult} {s : State}
    (hperm : permBijective s.cfg.perm = true) (hskip : skippable isFatal s.cfg skipped) (rest : List AdapterResult) :
    ∃ u : State, u.cfg = s.cfg ∧ nextReading isFatal (skipped ++ rest) s = nextReading isFatal rest u := by
  induction skipped generalizing s with
  | nil => exact ⟨s, rfl, rfl⟩
  | cons result skipped ih =>
    cases result with
    | timeout =>
      rw [List.cons_append, nextReading_timeout]
      exact ih hperm (skippable_timeout_cons.1 hskip)
    | ioError e =>
      obtain ⟨he, hskip⟩ := skippable_ioError_cons.1 hskip
      rw [List.cons_append, nextReading_transient he]
      exact ih hperm hskip
    | frame w =>
      obtain ⟨hr, hskip⟩ := skippable_frame_cons.1 hskip
      have hcfg : (s.transact w).cfg = s.cfg := State.transact_cfg s w
      rw [List.cons_append, nextReading_discards hperm hr, ← hcfg]
      rw [← hcfg] at hperm hskip
      exact ih hperm hskip

/-! How the loop ends. -/

/-- How the loop ends on `tail`, after the results it went past, in the state `u`. -/
inductive LoopStop (isFatal : Nat → Bool) (u : State) : List AdapterResult → LoopEnd → Prop where
  /-- No result is left. -/
  | waiting : LoopStop isFatal u [] (.waiting u)
  /-- A frame yields. -/
  | reading (w : BitVec 64) (r : Reading) (rest : List AdapterResult)
      (hr : (resultOf u.cfg.tempEval (deobfuscate u.cfg (bytes8 w))).readingOf = some r) :
      LoopStop isFatal u (.frame w :: rest) (.reading r (u.transact w) rest)
  /-- An error is fatal. -/
  | fatal (e : Nat) (rest : List AdapterResult) (he : isFatal e = true) :
      LoopStop isFatal u (.ioError e :: rest) (.fatal .read u)
  /-- The configuration is refused. -/
  | refused (w : BitVec 64) (rest : List AdapterResult) (hperm : permBijective u.cfg.perm = false) :
      LoopStop isFatal u (.frame w :: rest) (.refused (.configInvalid .permNotBijection))

/-- The loop goes past results until one of the four ends. -/
theorem nextReading_stops (isFatal : Nat → Bool) (results : List AdapterResult) (s : State) :
    ∃ (skipped tail : List AdapterResult) (u : State), results = skipped ++ tail ∧ u.cfg = s.cfg ∧
      skippable isFatal s.cfg skipped ∧ LoopStop isFatal u tail (nextReading isFatal results s) := by
  induction results generalizing s with
  | nil => exact ⟨[], [], s, rfl, rfl, skippable_nil, .waiting⟩
  | cons result results ih =>
    cases result with
    | timeout =>
      obtain ⟨skipped, tail, u, rfl, hcfg, hskip, hstop⟩ := ih s
      exact ⟨.timeout :: skipped, tail, u, rfl, hcfg, skippable_timeout_cons.2 hskip, hstop⟩
    | ioError e =>
      cases he : isFatal e with
      | true =>
        rw [nextReading_fatal he]
        exact ⟨[], _, s, rfl, rfl, skippable_nil, .fatal e results he⟩
      | false =>
        rw [nextReading_transient he]
        obtain ⟨skipped, tail, u, rfl, hcfg, hskip, hstop⟩ := ih s
        exact ⟨.ioError e :: skipped, tail, u, rfl, hcfg, skippable_ioError_cons.2 ⟨he, hskip⟩, hstop⟩
    | frame w =>
      cases hperm : permBijective s.cfg.perm with
      | false =>
        rw [nextReading_refused hperm]
        exact ⟨[], _, s, rfl, rfl, skippable_nil, .refused w results hperm⟩
      | true =>
        cases hr : (resultOf s.cfg.tempEval (deobfuscate s.cfg (bytes8 w))).readingOf with
        | some r =>
          rw [nextReading_yields hperm hr]
          exact ⟨[], _, s, rfl, rfl, skippable_nil, .reading w r results hr⟩
        | none =>
          rw [nextReading_discards hperm hr]
          obtain ⟨skipped, tail, u, rfl, hcfg, hskip, hstop⟩ := ih (s.transact w)
          rw [State.transact_cfg] at hcfg hskip
          exact ⟨.frame w :: skipped, tail, u, rfl, hcfg, skippable_frame_cons.2 ⟨hr, hskip⟩, hstop⟩

/-- Settles O54: of the ends of `nextReading_stops` only a yielding frame returns a Reading, and past the results before
it the loop reaches the frame (`nextReading_skip`). -/
theorem skipLoopReturnsTheFirstReading : Obligations.SkipLoopReturnsTheFirstReading := by
  intro isFatal results rest s r
  refine ⟨fun t hloop => ?_, fun skipped w hperm hresults hskip hr => ?_⟩
  · obtain ⟨skipped, tail, u, rfl, hcfg, hskip, hstop⟩ := nextReading_stops isFatal results s
    rw [hloop] at hstop
    cases hstop with
    | reading w _ _ hr =>
      have hres := State.transact_res u w
      rw [hcfg] at hres hr
      exact ⟨skipped, w, rfl, hskip, hres, by rw [hres, hr]⟩
  · obtain ⟨u, hcfg, hloop⟩ := nextReading_skip hperm hskip (.frame w :: rest)
    rw [← hcfg] at hperm hr ⊢
    exact ⟨u.transact w, by rw [hresults, hloop, nextReading_yields hperm hr], State.transact_res u w⟩

/-- Settles O55: of the ends of `nextReading_stops` only a fatal error ends the stream, naming `read`, and past the
results before it the loop reaches the error (`nextReading_skip`). -/
theorem skipLoopEndsOnlyOnAFatalReadError : Obligations.SkipLoopEndsOnlyOnAFatalReadError := by
  intro isFatal results s
  refine ⟨fun t failed hloop => ?_, fun skipped rest e hperm hresults he hskip => ?_⟩
  · obtain ⟨skipped, tail, u, rfl, -, hskip, hstop⟩ := nextReading_stops isFatal results s
    rw [hloop] at hstop
    cases hstop with
    | fatal e rest he => exact ⟨rfl, skipped, rest, e, rfl, he, hskip⟩
  · obtain ⟨u, -, hloop⟩ := nextReading_skip hperm hskip (.ioError e :: rest)
    exact ⟨u, by rw [hresults, hloop, nextReading_fatal he]⟩

/-! The start of a session (70_reset_and_hazards R98, 60_exceptions R89). -/

section
variable (isFatal : Nat → Bool) (e : Nat) (s : State)

/-- A failed `open` is fatal, whatever its error. -/
theorem startSession_openFailed (written : CallResult) :
    startSession isFatal (.failed e) written s = .fatal .openDevice s := by
  cases he : isFatal e <;> simp [startSession, callPolicy, errorEvent, hostPolicy, he]

variable {isFatal e}

theorem startSession_disconnected (he : isFatal e = true) :
    startSession isFatal .done (.failed e) s = .fatal .handshake s.sendReport := by
  simp [startSession, callPolicy, errorEvent, hostPolicy, he]

theorem startSession_reportFailed (he : isFatal e = false) :
    startSession isFatal .done (.failed e) s = .ready s.sendReport := by
  simp [startSession, callPolicy, errorEvent, hostPolicy, he]

end

/-- Settles O57, row by row of the policy's table; sending the report keeps the unit (`sendReport_eq`). -/
theorem hostErrorPolicyFollowsTheTable : Obligations.HostErrorPolicyFollowsTheTable :=
  fun isFatal s _ written e => ⟨nextReading_timeout, nextReading_transient, nextReading_fatal,
    startSession_openFailed isFatal e s written,
    fun he => ⟨_, startSession_disconnected s he, rfl, rfl, rfl⟩,
    fun he => ⟨_, startSession_reportFailed s he, rfl, rfl, rfl⟩⟩

end Sys2Proof.Machine
end

