-- ==== Sys2Proof/Proofs/NearestRounding.lean ====
section
/-! SUPPORT. Rounding is to nearest, ties to even, in every format whose parameters hang together as those of binary32
and binary64 do (00_scope section 5, 42_frame_decoder R66). -/

namespace Sys2Proof.Machine

/-- How the parameters of an IEEE 754 interchange format hang together: the subnormal unit is the least exponent of the
bias `2 ^ (expBits - 1) - 1` less the places of the significand, and 1 lies well inside the exponent's range. -/
structure Fmt.Standard (F : Fmt) : Prop where
  two_le_prec : 2 ≤ F.prec
  two_le_expBits : 2 ≤ F.expBits
  bias : F.qneg + 2 = 2 ^ (F.expBits - 1) - 1 + F.prec
  wide : F.qneg + 3 ≤ 2 ^ F.expBits

theorem fmt32_standard : fmt32.Standard := ⟨by decide, by decide, by decide, by decide⟩

theorem fmt64_standard : fmt64.Standard := ⟨by decide, by decide, by decide, by decide⟩

/-! Distances in units of the last place. -/

/-- A natural number within one half of `y` is at least as near to `y` as any other one. -/
theorem abs_sub_le_of_ne {m k : Nat} {y : ℚ} (hm : |(m : ℚ) - y| ≤ 1 / 2) (hk : k ≠ m) :
    |(m : ℚ) - y| ≤ |(k : ℚ) - y| ∧ (|(m : ℚ) - y| = |(k : ℚ) - y| → |(m : ℚ) - y| = 1 / 2) := by
  have hapart : (1 : ℚ) ≤ |(k : ℚ) - m| := by
    have : (1 : Int) ≤ |(k : Int) - m| := Int.one_le_abs (by omega)
    exact_mod_cast this
  have htriangle : |(k : ℚ) - m| ≤ |(k : ℚ) - y| + |(m : ℚ) - y| := by
    rw [abs_sub_comm (m : ℚ) y]
    exact abs_sub_le _ _ _
  exact ⟨by linarith, fun h => by linarith⟩

/-- The rounded significand `m` against any candidate `t`: a whole number of units, or one below the binade of `y`. -/
theorem near_of_candidate {m P : Nat} {y t : ℚ} (hm : |(m : ℚ) - y| ≤ 1 / 2)
    (heven : |(m : ℚ) - y| = 1 / 2 → m % 2 = 0) (ht : (∃ k : Nat, t = k) ∨ t < P ∧ (P : ℚ) ≤ y) :
    |(m : ℚ) - y| ≤ |t - y| ∧ (|(m : ℚ) - y| = |t - y| → (m : ℚ) = t ∨ m % 2 = 0) := by
  have hwhole : ∀ k : Nat, |(m : ℚ) - y| ≤ |(k : ℚ) - y| ∧
      (|(m : ℚ) - y| = |(k : ℚ) - y| → (m : ℚ) = k ∨ m % 2 = 0) := by
    intro k
    by_cases hk : k = m
    · rw [hk]; exact ⟨le_rfl, fun _ => .inl rfl⟩
    · obtain ⟨hle, htie⟩ := abs_sub_le_of_ne hm hk
      exact ⟨hle, fun h => .inr (heven (htie h))⟩
  obtain ⟨k, rfl⟩ | ⟨htP, hPy⟩ := ht
  · exact hwhole k
  · have hbelow : |(P : ℚ) - y| < |t - y| := by
      rw [abs_of_nonpos (by linarith), abs_of_neg (by linarith)]
      linarith
    have hlt := (hwhole P).1.trans_lt hbelow
    exact ⟨hlt.le, fun h => absurd h hlt.ne⟩

/-- A distance is the distance in units times the unit. -/
theorem abs_sub_eq_units {u : ℚ} (hu : 0 < u) (v x : ℚ) : |v - x| = |v / u - x / u| * u := by
  rw [← sub_div, abs_div, abs_of_pos hu, div_mul_cancel₀ _ hu.ne']

/-! The patterns of a format. -/

/-- A finite pattern is a magnitude below infinity, or such a magnitude with the sign bit. -/
theorem Fmt.finite_cases {F : Fmt} {b : Nat} (hb : F.finite b) :
    b < F.inf ∨ ∃ mag, mag < F.inf ∧ b = F.signBit + mag := by
  obtain ⟨hlt, hmag⟩ := hb
  rcases lt_or_ge b F.signBit with h | h
  · rw [Nat.mod_eq_of_lt h] at hmag
    exact .inl hmag
  · obtain ⟨mag, rfl⟩ := Nat.exists_eq_add_of_le h
    rw [Nat.add_mod_left, Nat.mod_eq_of_lt (by omega)] at hmag
    exact .inr ⟨mag, hmag, rfl⟩

section
variable {F : Fmt} (hF : F.Standard)
include hF

theorem Fmt.Standard.inf_lt_signBit : F.inf < F.signBit :=
  (signBit_eq F hF.two_le_expBits hF.two_le_prec).2.1

theorem Fmt.Standard.signBit_even : F.signBit % 2 = 0 :=
  (signBit_eq F hF.two_le_expBits hF.two_le_prec).2.2

/-- The exponent field stands above an even number of significands. -/
theorem Fmt.Standard.two_pow_eq : 2 ^ (F.prec - 1) = 2 * 2 ^ (F.prec - 2) := by
  rw [← pow_succ']
  congr 1
  have := hF.two_le_prec
  omega

theorem Fmt.Standard.inf_pos : 0 < F.inf := by
  have hexp : 1 < 2 ^ F.expBits := Nat.one_lt_two_pow (by have := hF.two_le_expBits; omega)
  exact Nat.mul_pos (by omega) (by positivity)

theorem Fmt.Standard.finite_of_lt_inf {b : Nat} (hb : b < F.inf) : F.finite b := by
  have hsign := hF.inf_lt_signBit
  exact ⟨by omega, by rwa [Nat.mod_eq_of_lt (by omega)]⟩

theorem Fmt.Standard.finite_signBit_add {mag : Nat} (hmag : mag < F.inf) : F.finite (F.signBit + mag) := by
  have hsign := hF.inf_lt_signBit
  exact ⟨by omega, by rwa [Nat.add_mod_left, Nat.mod_eq_of_lt (by omega)]⟩

/-- Every finite pattern has one of the opposite value. -/
theorem Fmt.Standard.exists_neg {b : Nat} (hb : F.finite b) :
    ∃ b', F.finite b' ∧ (F.value b').toRat = -(F.value b).toRat := by
  have hsign := hF.inf_lt_signBit
  obtain hmag | ⟨mag, hmag, rfl⟩ := Fmt.finite_cases hb
  · exact ⟨F.signBit + b, hF.finite_signBit_add hmag, value_neg F b (hmag.trans hsign)⟩
  · exact ⟨mag, hF.finite_of_lt_inf hmag, by rw [value_neg F mag (hmag.trans hsign), neg_neg]⟩

theorem Fmt.Standard.value_zero : (F.value 0).toRat = 0 := by
  rw [toRat_value F 0 (hF.inf_pos.trans hF.inf_lt_signBit)]
  simp

/-- A pattern's significand is full, unless it is subnormal, and its value is the significand times the unit. -/
theorem Fmt.Standard.exists_unit {b : Nat} (hb : b < F.inf) :
    ∃ E m : Nat, m < 2 * 2 ^ (F.prec - 1) ∧ (F.value b).toRat = (m : ℚ) * 2 ^ ((E : Int) - F.qneg) := by
  obtain ⟨E, m, rfl, hfull, hm⟩ := pattern_cases F b
  have hprec : 2 ^ F.prec = 2 * 2 ^ (F.prec - 1) := by
    rw [← pow_succ']; congr 1; have := hF.two_le_prec; omega
  exact ⟨E, m, hm, value_pattern F E m hF.two_le_prec hfull (by omega) (hb.trans hF.inf_lt_signBit)⟩

/-- Seen from the unit of exponent offset `E`, a pattern's value is a whole number of units, or it lies below the full
significands of `E`. -/
theorem Fmt.Standard.units_cases (E : Nat) {b : Nat} (hb : b < F.inf) :
    (∃ k : Nat, (F.value b).toRat / 2 ^ ((E : Int) - F.qneg) = k) ∨
      E ≠ 0 ∧ (F.value b).toRat / 2 ^ ((E : Int) - F.qneg) < (2 ^ (F.prec - 1) : Nat) := by
  obtain ⟨E', m, hm, hvalue⟩ := hF.exists_unit hb
  have hunits : (F.value b).toRat / 2 ^ ((E : Int) - F.qneg) = (m : ℚ) * 2 ^ ((E' : Int) - E) := by
    rw [hvalue, mul_div_assoc, ← zpow_sub₀ two_ne_zero]
    congr 2
    ring
  rw [hunits]
  rcases le_or_gt E E' with hE | hE
  · refine .inl ⟨m * 2 ^ (E' - E), ?_⟩
    rw [show (E' : Int) - E = ((E' - E : Nat) : Int) by omega, zpow_natCast]
    push_cast
    rfl
  · refine .inr ⟨by omega, ?_⟩
    have hhalf : (2 : ℚ) ^ ((E' : Int) - E) ≤ 2 ^ (-1 : Int) := zpow_le_zpow_right₀ (by norm_num) (by omega)
    have hmq : (m : ℚ) < 2 * (2 ^ (F.prec - 1) : Nat) := by exact_mod_cast hm
    calc (m : ℚ) * 2 ^ ((E' : Int) - E) ≤ m * 2 ^ (-1 : Int) := by gcongr
      _ = m / 2 := by rw [zpow_neg_one, div_eq_mul_inv]
      _ < _ := by linarith

/-! Nearest. -/

/-- A magnitude that is nearest among the patterns without sign is nearest to a value that is not negative: a pattern
with the sign bit is no nearer than zero. -/
theorem Fmt.Standard.nearest_of_magnitudes {x : ℚ} {b : Nat} (hx : 0 ≤ x) (hb : b < F.inf)
    (hnear : ∀ b' < F.inf, F.error x b ≤ F.error x b' ∧
      (F.error x b = F.error x b' → (F.value b).toRat = (F.value b').toRat ∨ b % 2 = 0)) : F.nearest x b := by
  refine ⟨hF.finite_of_lt_inf hb, fun other hother => ?_⟩
  obtain hmag | ⟨mag, hmag, rfl⟩ := Fmt.finite_cases hother
  · exact hnear other hmag
  · have hsign := hmag.trans hF.inf_lt_signBit
    have hpos := value_nonneg F mag hsign
    obtain ⟨hzero, htie⟩ := hnear 0 hF.inf_pos
    have herror0 : F.error x 0 = x := by rw [Fmt.error, hF.value_zero, zero_sub, abs_neg, abs_of_nonneg hx]
    have herror : F.error x (F.signBit + mag) = (F.value mag).toRat + x := by
      rw [Fmt.error, value_neg F mag hsign, abs_of_nonpos (by linarith)]
      ring
    rw [herror0] at hzero htie
    rw [herror, value_neg F mag hsign]
    refine ⟨by linarith, fun h => ?_⟩
    have hmag0 : (F.value mag).toRat = 0 := by linarith
    rw [hmag0, neg_zero, ← hF.value_zero]
    exact htie (by linarith)

/-- Nearest is symmetric in the sign. -/
theorem Fmt.Standard.nearest_neg {x : ℚ} {b : Nat} (hb : b < F.inf) (h : F.nearest x b) :
    F.nearest (-x) (F.signBit + b) := by
  have hvalue := value_neg F b (hb.trans hF.inf_lt_signBit)
  refine ⟨hF.finite_signBit_add hb, fun other hother => ?_⟩
  obtain ⟨other', hother', hneg⟩ := hF.exists_neg hother
  obtain ⟨hle, htie⟩ := h.2 other' hother'
  have hmirror : ∀ y z : ℚ, z = -y → |z - -x| = |y - x| := by
    rintro y z rfl
    rw [← abs_neg]
    congr 1
    ring
  have herror : F.error (-x) (F.signBit + b) = F.error x b := hmirror _ _ hvalue
  have herror' : F.error (-x) other = F.error x other' := hmirror _ _ (by rw [hneg, neg_neg])
  rw [herror, herror', hvalue, Nat.add_mod, hF.signBit_even]
  refine ⟨hle, fun heq => ?_⟩
  obtain hsame | heven := htie heq
  · exact .inl (by rw [hsame, hneg, neg_neg])
  · exact .inr (by omega)

/-- The rounding of a magnitude is nearest, inside the format's range. -/
theorem Fmt.Standard.roundMag_nearest {n d : Nat} (hd : 0 < d)
    (hx : (n : ℚ) / d ≤ 2 ^ (2 ^ (F.expBits - 1) - 1)) :
    F.roundMag n d < F.inf ∧ F.nearest ((n : ℚ) / d) (F.roundMag n d) := by
  rcases eq_or_ne n 0 with rfl | hn
  · have hround : F.roundMag 0 d = 0 := if_pos rfl
    rw [hround, Nat.cast_zero, zero_div]
    refine ⟨hF.inf_pos, hF.nearest_of_magnitudes le_rfl hF.inf_pos fun b' _ => ⟨?_, fun _ => .inr rfl⟩⟩
    rw [Fmt.error, hF.value_zero, sub_zero, abs_zero]
    exact abs_nonneg _
  · obtain ⟨E, m, hround, hfull, hm, hlt, hnear, heven, hbinade⟩ :=
      roundMag_spec F n d hF.two_le_prec hn hd hF.bias hF.two_le_expBits hx
    have hvalue := value_pattern F E m hF.two_le_prec hfull hm (hlt.trans hF.inf_lt_signBit)
    rw [← hround] at hvalue hlt
    refine ⟨hlt, hF.nearest_of_magnitudes (by positivity) hlt fun b' hb' => ?_⟩
    have habove : E ≠ 0 → ((2 ^ (F.prec - 1) : Nat) : ℚ) ≤ (n : ℚ) / d / 2 ^ ((E : Int) - F.qneg) := by
      push_cast
      exact hbinade
    have hcandidate := (hF.units_cases E hb').imp_right fun h => And.intro h.2 (habove h.1)
    obtain ⟨hle, htie⟩ := near_of_candidate hnear heven hcandidate
    have hu : (0 : ℚ) < 2 ^ ((E : Int) - F.qneg) := by positivity
    rw [Fmt.error, Fmt.error, hvalue, abs_sub_eq_units hu, abs_sub_eq_units hu (_ : Frac).toRat,
      mul_div_cancel_right₀ _ hu.ne', mul_le_mul_iff_left₀ hu, mul_left_inj' hu.ne', ← eq_div_iff hu.ne']
    have hparity : F.roundMag n d % 2 = m % 2 := by
      rw [hround, hF.two_pow_eq, mul_left_comm, Nat.mul_add_mod]
    rw [hparity]
    exact ⟨hle, htie⟩

end

/-- Rounding is to nearest, ties to even, inside the format's range. -/
theorem Fmt.Standard.round_nearest {F : Fmt} (hF : F.Standard) {x : Frac} (hd : 0 < x.den)
    (hx : |x.toRat| ≤ 2 ^ (2 ^ (F.expBits - 1) - 1)) : F.nearest x.toRat (F.round x) := by
  have hmag : |x.toRat| = (x.num.natAbs : ℚ) / x.den := by
    rw [Frac.toRat, abs_div, Nat.abs_cast, Nat.cast_natAbs, Int.cast_abs]
  rw [hmag] at hx
  obtain ⟨hlt, hnear⟩ := hF.roundMag_nearest hd hx
  rw [← hmag] at hnear
  by_cases hneg : x.num < 0
  · have hxneg : x.toRat < 0 := div_neg_of_neg_of_pos (by exact_mod_cast hneg) (by exact_mod_cast hd)
    rw [Fmt.round, if_pos hneg]
    rw [abs_of_neg hxneg] at hnear
    simpa using hF.nearest_neg hlt hnear
  · have hxpos : 0 ≤ x.toRat := div_nonneg (by exact_mod_cast not_lt.1 hneg) (by positivity)
    rw [Fmt.round, if_neg hneg, zero_add]
    rwa [abs_of_nonneg hxpos] at hnear

/-- Settles O26: both formats are standard, and rounding in a standard format is to nearest (`round_nearest`). -/
theorem roundingIsToNearestTiesToEven : Obligations.RoundingIsToNearestTiesToEven := by
  rintro F (rfl | rfl) x hd hx
  · exact fmt32_standard.round_nearest hd hx
  · exact fmt64_standard.round_nearest hd hx

end Sys2Proof.Machine
end

