-- ==== Sys2Proof/Proofs/Temperature.lean ====
section
/-! SUPPORT. The temperature conversion: its operations as roundings of exact rationals, what a format holds exactly,
and the binary32 result below 512 and its sign (42_frame_decoder R66). -/

namespace Sys2Proof.Machine

/-! The exact operations in the rationals. -/

theorem Frac.toRat_sub {x y : Frac} (hx : 0 < x.den) (hy : 0 < y.den) : (x.sub y).toRat = x.toRat - y.toRat := by
  have hxq : (x.den : ℚ) ≠ 0 := by positivity
  have hyq : (y.den : ℚ) ≠ 0 := by positivity
  simp only [Frac.toRat, Frac.sub]
  push_cast
  field_simp

theorem Frac.toRat_neg_iff {x : Frac} (hx : 0 < x.den) : x.toRat < 0 ↔ x.num < 0 := by
  have hxq : (0 : ℚ) < x.den := by exact_mod_cast hx
  rw [Frac.toRat, div_lt_iff₀ hxq, zero_mul, Int.cast_lt_zero]

theorem Frac.num_pos_of_toRat_pos {x : Frac} (h : 0 < x.toRat) : 0 < x.num := by
  by_contra hnum
  have hle : x.toRat ≤ 0 := div_nonpos_of_nonpos_of_nonneg (by exact_mod_cast not_lt.1 hnum) (by positivity)
  linarith

theorem Frac.toRat_div {x y : Frac} (hy : 0 < y.toRat) : (x.div y).toRat = x.toRat / y.toRat := by
  have hnum : ((y.num.toNat : Nat) : ℚ) = y.num := by
    exact_mod_cast Int.toNat_of_nonneg (Frac.num_pos_of_toRat_pos hy).le
  simp only [Frac.toRat, Frac.div]
  push_cast
  rw [hnum, div_div_div_eq]

theorem Fmt.value_den_pos (F : Fmt) (b : Nat) : 0 < (F.value b).den := Nat.two_pow_pos _

/-! What a format holds exactly. -/

section
variable {F : Fmt} (hF : F.Standard)
include hF

/-- A significand that fits, shifted to full width or as far as the subnormal unit allows. -/
theorem Fmt.Standard.exists_magnitude {n k : Nat} (hn : n < 2 ^ F.prec) (hk : k ≤ F.qneg) :
    ∃ b < F.inf, (F.value b).toRat = (n : ℚ) / 2 ^ k := by
  rcases eq_or_ne n 0 with rfl | h0
  · exact ⟨0, hF.inf_pos, by rw [hF.value_zero, Nat.cast_zero, zero_div]⟩
  · have hprec := hF.two_le_prec
    have hlog : Nat.log2 n < F.prec := (Nat.log2_lt h0).2 hn
    obtain ⟨shift, hshift⟩ : ∃ shift, shift = min (F.prec - 1 - Nat.log2 n) (F.qneg - k) := ⟨_, rfl⟩
    obtain ⟨E, hE⟩ : ∃ E, E + shift + k = F.qneg := ⟨F.qneg - k - shift, by omega⟩
    have hlow : 2 ^ (Nat.log2 n + shift) ≤ n * 2 ^ shift := by
      rw [pow_add]
      exact Nat.mul_le_mul_right _ (Nat.log2_self_le h0)
    have hhigh : n * 2 ^ shift < 2 ^ F.prec := by
      calc n * 2 ^ shift < 2 ^ (Nat.log2 n + 1) * 2 ^ shift :=
            Nat.mul_lt_mul_of_pos_right Nat.lt_log2_self (by positivity)
        _ = 2 ^ (Nat.log2 n + 1 + shift) := (pow_add _ _ _).symm
        _ ≤ 2 ^ F.prec := Nat.pow_le_pow_right (by norm_num) (by omega)
    have hfull : 2 ^ (F.prec - 1) ≤ n * 2 ^ shift ∨ E = 0 := by
      by_cases hE0 : E = 0
      · exact .inr hE0
      · have hwidth : F.prec - 1 = Nat.log2 n + shift := by omega
        exact .inl (hwidth ▸ hlow)
    have hlt : E * 2 ^ (F.prec - 1) + n * 2 ^ shift < F.inf := by
      have hdouble : 2 ^ F.prec = 2 * 2 ^ (F.prec - 1) := by rw [← pow_succ']; congr 1; omega
      have hwide := Nat.mul_le_mul_right (2 ^ (F.prec - 1)) (show E + 2 ≤ 2 ^ F.expBits - 1 by
        have := hF.wide
        omega)
      rw [Fmt.inf]
      linarith
    refine ⟨_, hlt, ?_⟩
    rw [value_pattern F E _ hprec hfull hhigh.le (hlt.trans hF.inf_lt_signBit), ← hE]
    push_cast
    rw [show (E : Int) - (E + shift + k) = -((shift + k : Nat) : Int) by push_cast; ring, zpow_neg, zpow_natCast,
      pow_add]
    field_simp

theorem Fmt.Standard.exists_exact {i : Int} {k : Nat} (hi : i.natAbs < 2 ^ F.prec) (hk : k ≤ F.qneg) :
    ∃ b, F.finite b ∧ (F.value b).toRat = (i : ℚ) / 2 ^ k := by
  obtain ⟨b, hb, hvalue⟩ := hF.exists_magnitude hi hk
  rw [Nat.cast_natAbs, Int.cast_abs] at hvalue
  rcases le_or_gt 0 i with h | h
  · rw [abs_of_nonneg (by exact_mod_cast h)] at hvalue
    exact ⟨b, hF.finite_of_lt_inf hb, hvalue⟩
  · rw [abs_of_neg (by exact_mod_cast h)] at hvalue
    obtain ⟨b', hb', hneg⟩ := hF.exists_neg (hF.finite_of_lt_inf hb)
    exact ⟨b', hb', by rw [hneg, hvalue, neg_div, neg_neg]⟩

/-- The nearest pattern to a value that the format holds has that value. -/
theorem Fmt.Standard.value_of_nearest {x : ℚ} {b : Nat} (h : F.nearest x b) {i : Int} {k : Nat}
    (hi : i.natAbs < 2 ^ F.prec) (hk : k ≤ F.qneg) (hx : x = i / 2 ^ k) : (F.value b).toRat = x := by
  obtain ⟨held, hfinite, hvalue⟩ := hF.exists_exact hi hk
  have hle := (h.2 held hfinite).1
  rw [Fmt.error, Fmt.error, hvalue, ← hx, sub_self, abs_zero] at hle
  exact sub_eq_zero.1 (abs_nonpos_iff.1 hle)

/-- The nearest value is no further from zero than twice the exact one, as zero itself is a candidate. -/
theorem Fmt.Standard.abs_value_le_of_nearest {x : ℚ} {b : Nat} (h : F.nearest x b) : |(F.value b).toRat| ≤ 2 * |x| := by
  have hle := (h.2 0 (hF.finite_of_lt_inf hF.inf_pos)).1
  rw [Fmt.error, Fmt.error, hF.value_zero, zero_sub, abs_neg] at hle
  have htriangle := abs_sub_abs_le_abs_sub (F.value b).toRat x
  linarith

/-! Each operation is the rounding of the exact result. -/

theorem Fmt.Standard.div_nearest {a b : Nat} (hb : 0 < (F.value b).toRat)
    (hrange : |(F.value a).toRat / (F.value b).toRat| ≤ 2 ^ (2 ^ (F.expBits - 1) - 1)) :
    F.nearest ((F.value a).toRat / (F.value b).toRat) (F.div a b) := by
  rw [← Frac.toRat_div hb] at hrange ⊢
  have hnum := Frac.num_pos_of_toRat_pos hb
  exact hF.round_nearest (Nat.mul_pos (F.value_den_pos a) (by omega)) hrange

theorem Fmt.Standard.sub_nearest {a b : Nat}
    (hrange : |(F.value a).toRat - (F.value b).toRat| ≤ 2 ^ (2 ^ (F.expBits - 1) - 1)) :
    F.nearest ((F.value a).toRat - (F.value b).toRat) (F.sub a b) := by
  rw [← Frac.toRat_sub (F.value_den_pos a) (F.value_den_pos b)] at hrange ⊢
  exact hF.round_nearest (Nat.mul_pos (F.value_den_pos a) (F.value_den_pos b)) hrange

/-- The sign of a rounded value is that of the exact one. -/
theorem Fmt.Standard.signBit_le_round_iff {x : Frac} (hx : 0 < x.den) : F.signBit ≤ F.round x ↔ x.toRat < 0 := by
  have hmag : F.roundMag x.num.natAbs x.den < F.signBit := by
    refine lt_of_le_of_lt ?_ hF.inf_lt_signBit
    rw [Fmt.roundMag]
    split
    · exact Nat.zero_le _
    · exact min_le_right _ _
  rw [Frac.toRat_neg_iff hx, Fmt.round]
  split <;> omega

theorem Fmt.Standard.signBit_le_sub_iff {a b : Nat} :
    F.signBit ≤ F.sub a b ↔ (F.value a).toRat - (F.value b).toRat < 0 := by
  rw [← Frac.toRat_sub (F.value_den_pos a) (F.value_den_pos b)]
  exact hF.signBit_le_round_iff (Nat.mul_pos (F.value_den_pos a) (F.value_den_pos b))

end

/-! The conversion in a format that holds every payload. -/

/-- A standard format with 16 bits of significand, whose range goes beyond every number of the conversion. -/
structure Fmt.HoldsPayloads (F : Fmt) : Prop extends Fmt.Standard F where
  sixteen_le_prec : 16 ≤ F.prec
  range : 17 ≤ 2 ^ (F.expBits - 1)
  four_le_qneg : 4 ≤ F.qneg

theorem fmt32_holdsPayloads : fmt32.HoldsPayloads := ⟨fmt32_standard, by decide, by decide, by decide⟩

theorem fmt64_holdsPayloads : fmt64.HoldsPayloads := ⟨fmt64_standard, by decide, by decide, by decide⟩

section
variable {F : Fmt} (hF : F.HoldsPayloads)
include hF

/-- Numbers up to 65536 are in range. -/
theorem Fmt.HoldsPayloads.in_range {x : ℚ} (hx : |x| ≤ 2 ^ 16) : |x| ≤ 2 ^ (2 ^ (F.expBits - 1) - 1) := by
  have := hF.range
  exact hx.trans (pow_le_pow_right₀ (by norm_num) (by omega))

/-- A number of 16 bits, over a power of two the format reaches, is held exactly. -/
theorem Fmt.HoldsPayloads.value_of_nearest_payload {x : ℚ} {b v k : Nat} (h : F.nearest x b) (hv : v < 2 ^ 16)
    (hk : k ≤ 4) (hx : x = v / 2 ^ k) : (F.value b).toRat = x := by
  have hfits : 2 ^ 16 ≤ 2 ^ F.prec := Nat.pow_le_pow_right (by norm_num) hF.sixteen_le_prec
  exact hF.value_of_nearest h (i := v) (hv.trans_le hfits) (hk.trans hF.four_le_qneg)
    (by rw [hx, Int.cast_natCast])

/-- A 16-bit integer is its own rounding. -/
theorem Fmt.HoldsPayloads.value_round_nat {v : Nat} (hv : v < 2 ^ 16) : (F.value (F.round ⟨v, 1⟩)).toRat = v := by
  have hexact : (⟨v, 1⟩ : Frac).toRat = v := by simp [Frac.toRat]
  have hrange : |(⟨v, 1⟩ : Frac).toRat| ≤ 2 ^ 16 := by
    rw [hexact, Nat.abs_cast]
    exact_mod_cast hv.le
  have hnear := hF.round_nearest one_pos (hF.in_range hrange)
  rw [hexact] at hnear
  exact hF.value_of_nearest_payload hnear hv (Nat.zero_le 4) (by simp)

variable {v : Nat} (hv : v < 2 ^ 16)
include hv

/-- The quotient's operation, with its operands exact. -/
theorem Fmt.HoldsPayloads.quotient_nearest :
    F.nearest ((v : ℚ) / 16) (F.div (F.round ⟨v, 1⟩) (F.round ⟨16, 1⟩)) := by
  have hdividend := hF.value_round_nat hv
  have hdivisor : (F.value (F.round ⟨16, 1⟩)).toRat = 16 := hF.value_round_nat (v := 16) (by norm_num)
  have hvq : (v : ℚ) ≤ 2 ^ 16 := by exact_mod_cast hv.le
  have hnear := hF.div_nearest (a := F.round ⟨v, 1⟩) (b := F.round ⟨16, 1⟩) (by rw [hdivisor]; norm_num)
    (hF.in_range (by rw [hdividend, hdivisor, abs_of_nonneg (by positivity)]; linarith))
  rwa [hdividend, hdivisor] at hnear

/-- The quotient loses nothing: it is the payload with its point moved by four places. -/
theorem Fmt.HoldsPayloads.value_quotient :
    (F.value (F.div (F.round ⟨v, 1⟩) (F.round ⟨16, 1⟩))).toRat = (v : ℚ) / 16 :=
  hF.value_of_nearest_payload (hF.quotient_nearest hv) hv le_rfl (by norm_num)

omit hv in
theorem Fmt.HoldsPayloads.offset_nearest : F.nearest (27315 / 100) (F.round kelvinOffset) := by
  have hexact : kelvinOffset.toRat = 27315 / 100 := by norm_num [Frac.toRat, kelvinOffset]
  rw [← hexact]
  exact hF.round_nearest (by decide) (hF.in_range (by rw [hexact]; norm_num [abs_of_pos]))

/-- The exact difference of the rounded quotient and the rounded constant stays small. -/
theorem Fmt.HoldsPayloads.abs_difference_le :
    |(F.value (F.div (F.round ⟨v, 1⟩) (F.round ⟨16, 1⟩))).toRat - (F.value (F.round kelvinOffset)).toRat| ≤ 2 ^ 13 := by
  have hvq : (v : ℚ) ≤ 2 ^ 16 := by exact_mod_cast hv.le
  have hv0 : (0 : ℚ) ≤ v := by positivity
  have hoffset := hF.abs_value_le_of_nearest hF.offset_nearest
  rw [abs_of_pos (by norm_num : (0 : ℚ) < 27315 / 100), abs_le] at hoffset
  rw [hF.value_quotient hv, abs_le]
  constructor <;> linarith

theorem Fmt.HoldsPayloads.tempExpr_nearest :
    F.nearest ((F.value (F.div (F.round ⟨v, 1⟩) (F.round ⟨16, 1⟩))).toRat - (F.value (F.round kelvinOffset)).toRat)
      (F.tempExpr v) :=
  hF.sub_nearest (hF.in_range ((hF.abs_difference_le hv).trans (by norm_num)))

theorem Fmt.HoldsPayloads.abs_tempExpr_le : |(F.value (F.tempExpr v)).toRat| ≤ 2 ^ 16 := by
  have hle := hF.abs_value_le_of_nearest (hF.tempExpr_nearest hv)
  have hdifference := hF.abs_difference_le hv
  linarith

end

/-- Settles O56: each operation of the conversion rounds to nearest, in either format, and the narrowing to binary32
does too. -/
theorem temperatureIsTheRoundedExpression : Obligations.TemperatureIsTheRoundedExpression := by
  intro v
  have hv : v.toNat < 2 ^ 16 := v.isLt
  have h32 := fmt32_holdsPayloads
  have h64 := fmt64_holdsPayloads
  exact ⟨⟨_, _, _, h32.quotient_nearest hv, h32.offset_nearest, h32.tempExpr_nearest hv, rfl⟩,
    ⟨_, _, _, _, h64.quotient_nearest hv, h64.offset_nearest, h64.tempExpr_nearest hv,
      h32.round_nearest (fmt64.value_den_pos _) (h32.in_range (h64.abs_tempExpr_le hv)), rfl⟩⟩

/-! The binary32 default ("Properties of the binary32 default" in 42_frame_decoder). -/

/-- 273.15 in binary32 is `8950579 / 32768`. -/
theorem fmt32_value_offset : (fmt32.value (fmt32.round kelvinOffset)).toRat = 8950579 / 32768 := by
  have hvalue : fmt32.value (fmt32.round kelvinOffset) = ⟨8950579, 32768⟩ := by decide
  rw [hvalue]
  norm_num [Frac.toRat]

section
variable {v : Nat} (hv : v < 2 ^ 16)
include hv

theorem fmt32_tempExpr_nearest : fmt32.nearest ((v : ℚ) / 16 - 8950579 / 32768) (fmt32.tempExpr v) := by
  have hnear := fmt32_holdsPayloads.tempExpr_nearest hv
  rwa [fmt32_holdsPayloads.value_quotient hv, fmt32_value_offset] at hnear

/-- The result is a pattern of 32 bits. -/
theorem fmt32_tempExpr_lt : fmt32.tempExpr v < 2 ^ 32 := by
  obtain ⟨⟨hlt, -⟩, -⟩ := fmt32_tempExpr_nearest hv
  exact hlt

/-- The sign bit is set exactly when the exact difference is negative. -/
theorem signBit_le_fmt32_tempExpr_iff : 2 ^ 31 ≤ fmt32.tempExpr v ↔ (v : ℚ) / 16 - 8950579 / 32768 < 0 := by
  rw [← fmt32_value_offset, ← fmt32_holdsPayloads.value_quotient hv]
  exact fmt32_standard.signBit_le_sub_iff

end

theorem tempC_toNat (v : BitVec 16) : (tempC .binary32 v).toNat = fmt32.tempExpr v.toNat :=
  Nat.mod_eq_of_lt (fmt32_tempExpr_lt v.isLt)

/-- Settles O27: up to 12562 the exact difference has a numerator of at most 24 bits over `2 ^ 15`, and binary32 holds
it. -/
theorem binary32TemperatureIsExactBelow512 : Obligations.Binary32TemperatureIsExactBelow512 := by
  intro v hv
  have hexact : ((v.toNat : ℚ) / 16 - 8950579 / 32768) = ((v.toNat * 2048 - 8950579 : Int) : ℚ) / 2 ^ 15 := by
    push_cast
    ring
  have hfits : (v.toNat * 2048 - 8950579 : Int).natAbs < 2 ^ fmt32.prec := by
    rw [show 2 ^ fmt32.prec = 16777216 from rfl]
    omega
  have hvalue := fmt32_standard.value_of_nearest (fmt32_tempExpr_nearest v.isLt) hfits (by decide) hexact
  rw [← tempC_toNat, hexact, Frac.toRat, div_eq_div_iff (by exact_mod_cast (fmt32.value_den_pos _).ne') (by norm_num)]
    at hvalue
  exact_mod_cast hvalue

/-- Settles O28: the sign is that of `v / 16 - 8950579 / 32768`, which changes between 4370 and 4371. -/
theorem binary32TemperatureSign : Obligations.Binary32TemperatureSign := by
  intro v
  have hv : v.toNat < 2 ^ 16 := v.isLt
  have hsign := signBit_le_fmt32_tempExpr_iff hv
  rw [sub_neg, div_lt_div_iff₀ (by norm_num) (by norm_num)] at hsign
  norm_cast at hsign
  rw [BitVec.msb_eq_true_iff_two_mul_ge, tempC_toNat]
  omega

end Sys2Proof.Machine
end
